-- ==== Sys2Proof/Word.lean ====
section
/-! DEFINITION. The word types of the engine (spec rules R9, R10): bytes, 16-bit words, 12-bit addresses and 4-bit
register or key numbers. All of them are unsigned. -/

namespace Sys2Proof

/-- An 8-bit value: a general register, a timer, a byte of memory (R21, R31, R60). -/
abbrev Byte := BitVec 8

/-- A 16-bit value: an opcode, `pc`, `I`, a return address, the keypad (R10, R25, R26, R29, R32). -/
abbrev Word := BitVec 16

/-- A 12-bit address of one byte of memory, and the field `NNN` (R60, R91). -/
abbrev Addr := BitVec 12

/-- A 4-bit value: the fields `X`, `Y`, `N`, a register number or a key number (R21, R32, R91). -/
abbrev Nibble := BitVec 4

/-- A byte seen as a 16-bit value, `zext_16` of R11. -/
abbrev Byte.toWord (b : Byte) : Word := b.setWidth 16

/-- A 12-bit value seen as a 16-bit value, `zext_16` of R11. -/
abbrev Addr.toWord (a : Addr) : Word := a.setWidth 16

/-- A 4-bit value seen as a byte, `zext_8` of R11. -/
abbrev Nibble.toByte (n : Nibble) : Byte := n.setWidth 8

end Sys2Proof
end

