-- ==== Sys2Proof/Syntax.lean ====
section
/-! DEFINITION. The instructions: one constructor per row of the opcode table (R96), in the table's order, each with the
fields of its format and no others (R92, R100). -/

namespace Sys2Proof

/-- The 34 instruction shapes of R96. A field has the width its format gives it (R91, R93), and every value of a field is
legal, so every term of this type is an instruction. -/
inductive Instr where
  /-- 00E0 `CLS`: clear the display (R220). -/
  | cls
  /-- 00EE `RET`: return from subroutine (R150). -/
  | ret
  /-- 1NNN `JP NNN`: jump (R151). -/
  | jp (nnn : Addr)
  /-- 2NNN `CALL NNN`: call subroutine (R152). -/
  | call (nnn : Addr)
  /-- 3XNN `SE VX, NN`: skip if VX = NN (R154). -/
  | seImm (x : Nibble) (nn : Byte)
  /-- 4XNN `SNE VX, NN`: skip if VX ≠ NN (R155). -/
  | sneImm (x : Nibble) (nn : Byte)
  /-- 5XY0 `SE VX, VY`: skip if VX = VY (R156). -/
  | seReg (x y : Nibble)
  /-- 6XNN `LD VX, NN` (R170). -/
  | ldImm (x : Nibble) (nn : Byte)
  /-- 7XNN `ADD VX, NN`, no flag (R171). -/
  | addImm (x : Nibble) (nn : Byte)
  /-- 8XY0 `LD VX, VY` (R172). -/
  | ldReg (x y : Nibble)
  /-- 8XY1 `OR VX, VY` (R173). -/
  | orReg (x y : Nibble)
  /-- 8XY2 `AND VX, VY` (R174). -/
  | andReg (x y : Nibble)
  /-- 8XY3 `XOR VX, VY` (R175). -/
  | xorReg (x y : Nibble)
  /-- 8XY4 `ADD VX, VY`, VF is the carry (R176). -/
  | addReg (x y : Nibble)
  /-- 8XY5 `SUB VX, VY`, VF is no borrow (R177). -/
  | subReg (x y : Nibble)
  /-- 8XY6 `SHR VX`: `y` is decoded and ignored (R98, R178). -/
  | shr (x y : Nibble)
  /-- 8XY7 `SUBN VX, VY`, VF is no borrow (R179). -/
  | subn (x y : Nibble)
  /-- 8XYE `SHL VX`: `y` is decoded and ignored (R98, R180). -/
  | shl (x y : Nibble)
  /-- 9XY0 `SNE VX, VY`: skip if VX ≠ VY (R157). -/
  | sneReg (x y : Nibble)
  /-- ANNN `LD I, NNN` (R200). -/
  | ldI (nnn : Addr)
  /-- BNNN `JP V0, NNN`: jump to NNN + V0 (R153). -/
  | jpV0 (nnn : Addr)
  /-- CXNN `RND VX, NN`: a random byte AND NN (R184). -/
  | rnd (x : Nibble) (nn : Byte)
  /-- DXYN `DRW VX, VY, N`: draw a sprite of N rows, VF is the collision (R221). -/
  | drw (x y n : Nibble)
  /-- EX9E `SKP VX`: skip if key VX is pressed (R240). -/
  | skp (x : Nibble)
  /-- EXA1 `SKNP VX`: skip if key VX is not pressed (R241). -/
  | sknp (x : Nibble)
  /-- FX07 `LD VX, DT`: read the delay timer (R245). -/
  | ldFromDt (x : Nibble)
  /-- FX0A `LD VX, K`: wait for a key press (R243, R244). -/
  | ldKey (x : Nibble)
  /-- FX15 `LD DT, VX`: set the delay timer (R246). -/
  | ldDt (x : Nibble)
  /-- FX18 `LD ST, VX`: set the sound timer (R247). -/
  | ldSt (x : Nibble)
  /-- FX1E `ADD I, VX` (R201). -/
  | addI (x : Nibble)
  /-- FX29 `LD F, VX`: point `I` at the glyph of VX (R202). -/
  | ldFont (x : Nibble)
  /-- FX33 `LD B, VX`: store the decimal digits of VX (R203). -/
  | bcd (x : Nibble)
  /-- FX55 `LD [I], VX`: store V0 to VX (R204). -/
  | store (x : Nibble)
  /-- FX65 `LD VX, [I]`: load V0 to VX (R205). -/
  | load (x : Nibble)
  deriving DecidableEq, Repr

end Sys2Proof
end

