-- ==== Sys2Proof/Decode.lean ====
section
/-! DEFINITION. The decoder (R91, R94) and the encoder (R92, R96). Decoding is total: a word is one of the 34 instruction
shapes or is unknown, and it depends on the word alone. -/

namespace Sys2Proof

/-! ### Fields of the opcode (R91) -/

/-- `n3 = op[15:12]`, the family. -/
def fieldFamily (op : Word) : Nibble := op.extractLsb' 12 4

/-- `X = op[11:8]`. -/
def fieldX (op : Word) : Nibble := op.extractLsb' 8 4

/-- `Y = op[7:4]`. -/
def fieldY (op : Word) : Nibble := op.extractLsb' 4 4

/-- `N = op[3:0]`. -/
def fieldN (op : Word) : Nibble := op.extractLsb' 0 4

/-- `NN = op[7:0]`. -/
def fieldNN (op : Word) : Byte := op.extractLsb' 0 8

/-- `NNN = op[11:0]`. -/
def fieldNNN (op : Word) : Addr := op.extractLsb' 0 12

/-! ### Decoder (R94) -/

/-- Family 0x0: two opcodes, everything else unknown (R94, R97). -/
def decode0 (op : Word) : Option Instr :=
  if op = 0x00E0#16 then some .cls
  else if op = 0x00EE#16 then some .ret
  else none

/-- Family 0x8: the register forms, by the low nibble (R94). -/
def decode8 (x y n : Nibble) : Option Instr :=
  match n with
  | 0x0#4 => some (.ldReg x y)
  | 0x1#4 => some (.orReg x y)
  | 0x2#4 => some (.andReg x y)
  | 0x3#4 => some (.xorReg x y)
  | 0x4#4 => some (.addReg x y)
  | 0x5#4 => some (.subReg x y)
  | 0x6#4 => some (.shr x y)
  | 0x7#4 => some (.subn x y)
  | 0xE#4 => some (.shl x y)
  | _ => none

/-- Family 0xE: the keypad skips, by the low byte (R94). -/
def decodeE (x : Nibble) (nn : Byte) : Option Instr :=
  match nn with
  | 0x9E#8 => some (.skp x)
  | 0xA1#8 => some (.sknp x)
  | _ => none

/-- Family 0xF: by the low byte (R94). -/
def decodeF (x : Nibble) (nn : Byte) : Option Instr :=
  match nn with
  | 0x07#8 => some (.ldFromDt x)
  | 0x0A#8 => some (.ldKey x)
  | 0x15#8 => some (.ldDt x)
  | 0x18#8 => some (.ldSt x)
  | 0x1E#8 => some (.addI x)
  | 0x29#8 => some (.ldFont x)
  | 0x33#8 => some (.bcd x)
  | 0x55#8 => some (.store x)
  | 0x65#8 => some (.load x)
  | _ => none

/-- The decoder of R94: `none` is its outcome `Unknown`. -/
def decode (op : Word) : Option Instr :=
  match fieldFamily op with
  | 0x0#4 => decode0 op
  | 0x1#4 => some (.jp (fieldNNN op))
  | 0x2#4 => some (.call (fieldNNN op))
  | 0x3#4 => some (.seImm (fieldX op) (fieldNN op))
  | 0x4#4 => some (.sneImm (fieldX op) (fieldNN op))
  | 0x5#4 => if fieldN op = 0#4 then some (.seReg (fieldX op) (fieldY op)) else none
  | 0x6#4 => some (.ldImm (fieldX op) (fieldNN op))
  | 0x7#4 => some (.addImm (fieldX op) (fieldNN op))
  | 0x8#4 => decode8 (fieldX op) (fieldY op) (fieldN op)
  | 0x9#4 => if fieldN op = 0#4 then some (.sneReg (fieldX op) (fieldY op)) else none
  | 0xA#4 => some (.ldI (fieldNNN op))
  | 0xB#4 => some (.jpV0 (fieldNNN op))
  | 0xC#4 => some (.rnd (fieldX op) (fieldNN op))
  | 0xD#4 => some (.drw (fieldX op) (fieldY op) (fieldN op))
  | 0xE#4 => decodeE (fieldX op) (fieldNN op)
  | 0xF#4 => decodeF (fieldX op) (fieldNN op)
  | _ => none

/-! ### Bytes: an instruction is two bytes, high byte first (R62, R90) -/

/-- The opcode of two consecutive bytes, `(first << 8) | second` (R62, R122). -/
def opcodeOf (hi lo : Byte) : Word := (hi.setWidth 16 <<< 8) ||| lo.setWidth 16

/-- The byte of an opcode that lies at the lower address, `op[15:8]` (R62). -/
def highByte (op : Word) : Byte := op.extractLsb' 8 8

/-- The byte of an opcode that lies at the higher address, `op[7:0]` (R62). -/
def lowByte (op : Word) : Byte := op.extractLsb' 0 8

/-- Why a byte sequence has no instruction at its head. -/
inductive DecodeError where
  /-- The word matches no row of R96; it is carried raw (R97, R100). -/
  | unknown (op : Word)
  /-- Fewer than the two bytes an instruction takes (R90). -/
  | truncated
  deriving DecidableEq, Repr

/-- The instruction at the head of a byte sequence, with the rest, or the reason there is none. -/
def decodeBytes : List Byte → Except DecodeError (Instr × List Byte)
  | hi :: lo :: rest =>
    match decode (opcodeOf hi lo) with
    | some i => .ok (i, rest)
    | none => .error (.unknown (opcodeOf hi lo))
  | _ => .error .truncated

/-- The instruction of the word `w` of the opcode table, given as `nbits` bits with bit 0 the least significant: it is
laid out as two bytes, high byte first (R62), and decoded from them. -/
def decodeTableWord (nbits w : Nat) : Option Instr :=
  match decodeBytes [highByte (BitVec.ofNat 16 (w % 2 ^ nbits)), lowByte (BitVec.ofNat 16 (w % 2 ^ nbits))] with
  | .ok (i, _) => some i
  | .error _ => none

/-! ### Encoder (formats of R92, patterns of R96) -/

/-- Format `A`: family and `NNN`. -/
def formatA (family : Nibble) (nnn : Addr) : Word :=
  (family.setWidth 16 <<< 12) ||| nnn.setWidth 16

/-- Formats `XI` and `XF`: family, `X` and the low byte. -/
def formatXI (family x : Nibble) (nn : Byte) : Word :=
  (family.setWidth 16 <<< 12) ||| (x.setWidth 16 <<< 8) ||| nn.setWidth 16

/-- Formats `XY` and `XYN`: family, `X`, `Y` and the low nibble. -/
def formatXYN (family x y n : Nibble) : Word :=
  (family.setWidth 16 <<< 12) ||| (x.setWidth 16 <<< 8) ||| (y.setWidth 16 <<< 4) ||| n.setWidth 16

/-- The opcode of an instruction (R96). -/
def encode : Instr → Word
  | .cls => 0x00E0#16
  | .ret => 0x00EE#16
  | .jp nnn => formatA 0x1#4 nnn
  | .call nnn => formatA 0x2#4 nnn
  | .seImm x nn => formatXI 0x3#4 x nn
  | .sneImm x nn => formatXI 0x4#4 x nn
  | .seReg x y => formatXYN 0x5#4 x y 0x0#4
  | .ldImm x nn => formatXI 0x6#4 x nn
  | .addImm x nn => formatXI 0x7#4 x nn
  | .ldReg x y => formatXYN 0x8#4 x y 0x0#4
  | .orReg x y => formatXYN 0x8#4 x y 0x1#4
  | .andReg x y => formatXYN 0x8#4 x y 0x2#4
  | .xorReg x y => formatXYN 0x8#4 x y 0x3#4
  | .addReg x y => formatXYN 0x8#4 x y 0x4#4
  | .subReg x y => formatXYN 0x8#4 x y 0x5#4
  | .shr x y => formatXYN 0x8#4 x y 0x6#4
  | .subn x y => formatXYN 0x8#4 x y 0x7#4
  | .shl x y => formatXYN 0x8#4 x y 0xE#4
  | .sneReg x y => formatXYN 0x9#4 x y 0x0#4
  | .ldI nnn => formatA 0xA#4 nnn
  | .jpV0 nnn => formatA 0xB#4 nnn
  | .rnd x nn => formatXI 0xC#4 x nn
  | .drw x y n => formatXYN 0xD#4 x y n
  | .skp x => formatXI 0xE#4 x 0x9E#8
  | .sknp x => formatXI 0xE#4 x 0xA1#8
  | .ldFromDt x => formatXI 0xF#4 x 0x07#8
  | .ldKey x => formatXI 0xF#4 x 0x0A#8
  | .ldDt x => formatXI 0xF#4 x 0x15#8
  | .ldSt x => formatXI 0xF#4 x 0x18#8
  | .addI x => formatXI 0xF#4 x 0x1E#8
  | .ldFont x => formatXI 0xF#4 x 0x29#8
  | .bcd x => formatXI 0xF#4 x 0x33#8
  | .store x => formatXI 0xF#4 x 0x55#8
  | .load x => formatXI 0xF#4 x 0x65#8

/-- The two bytes of an instruction as memory holds them (R62, R90). -/
def encodeBytes (i : Instr) : List Byte := [highByte (encode i), lowByte (encode i)]

end Sys2Proof
end

