-- ==== Sys2Proof/Config.lean ====
section
/-! DEFINITION. What an implementation fixes: the fixed parameters of R7, the open parameters of R8 with the value the
spec takes for each, and the free values (R127, R184, R244). -/

namespace Sys2Proof

/-! ### Fixed parameters (R7). The widths and counts that R7 also fixes stand in the types of `Machine.State`. -/

/-- `MEM_SIZE`: memory holds 4096 bytes, 0x000 to 0xFFF. -/
abbrev Config.memSize : Nat := 4096

/-- `FONT_BASE`: where `load` copies the font table. -/
abbrev Config.fontBase : Nat := 0x050

/-- `GLYPH_LEN`: bytes of one glyph, the stride of FX29. -/
abbrev Config.glyphLen : Nat := 5

/-- `PROG_BASE`: where `load` copies the program, and `pc` after reset. -/
abbrev Config.progBase : Nat := 0x200

/-- `MAX_PROG`: the longest program `load` accepts. -/
abbrev Config.maxProg : Nat := 3584

/-- The last `pc` a fetch accepts: `pc + 1` must still be an address (R122). -/
abbrev Config.lastFetch : Nat := 0x0FFE

/-! ### Open parameters (R8). The operations that depend on one take it as an argument and give every reading that the
spec describes; the meanings pass the value below, the spec's own. -/

/-- `DRAW_MODE`: does every sprite pixel wrap, or only the origin (R221 corner case (a), D11)? -/
inductive DrawMode where
  | wrapPixels
  | clipAtEdge
  deriving DecidableEq, Repr

/-- `KEY_INDEX_MODE`: how EX9E and EXA1 treat a key number above 0x0F (R242, D13). -/
inductive KeyIndexMode where
  | lowNibble
  | notPressed
  deriving DecidableEq, Repr

/-- `FONT_DIGIT_MODE`: does FX29 use the whole byte VX or its low nibble (R202, D14)? -/
inductive FontDigitMode where
  | fullByte
  | lowNibble
  deriving DecidableEq, Repr

/-- `WAIT_KEY_PICK`: which of several keys that went down together FX0A takes (R244 corner case (c), D15). -/
inductive WaitKeyPick where
  | lowest
  | anyPressed
  deriving DecidableEq, Repr

/-- The spec's value of `JUMP_V0_MASK`: BNNN does not mask its target (R153, D3). -/
def Config.jumpV0Mask : Bool := false

/-- The spec's value of `DRAW_MODE` (R221, D11). -/
def Config.drawMode : DrawMode := .wrapPixels

/-- The spec's value of `KEY_INDEX_MODE` (R242, D13). -/
def Config.keyIndexMode : KeyIndexMode := .lowNibble

/-- The spec's value of `FONT_DIGIT_MODE` (R202, D14). -/
def Config.fontDigitMode : FontDigitMode := .fullByte

/-- The spec's value of `WAIT_KEY_PICK` (R244, D15). -/
def Config.waitKeyPick : WaitKeyPick := .lowest

/-! ### Free values. They have no body, so nothing can be proved of their values. -/

/-- `RAND`: the pseudo-random byte of the `n`th draw. The spec gives no generator, seed or distribution, and every one of
the 256 values must be allowed at every draw (R127, R184, D9). Assumption log entry 1. -/
opaque Config.randByte (n : Nat) : Byte

/-- The choice FX0A makes among the newly pressed keys under `WaitKeyPick.anyPressed`, the reading of R244 (c) that claims
nothing about which key it is. The spec's own reading, `lowest`, does not use it. Assumption log entry 9. -/
opaque Config.keyChoice (n : Nat) : Nat

end Sys2Proof
end

