-- ==== Sys2Proof/Machine/State.lean ====
section
/-! DEFINITION. The state of the engine (R20), the conditions it can raise (R260), and the state right after reset (R36).
State is plain data and holds every piece of state that R20 lists, and one field of the model's own, `draws`. -/

namespace Sys2Proof.Machine

/-- Memory as (address, byte) pairs. An address that is not listed reads as 0x00, what `load` leaves in every byte outside
the font and the program (R36, D16). -/
abbrev Memory := List Host.Cell

/-- The canonical form of memory: addresses strictly rising and inside the 4096 bytes (R60), and no entry equal to what an
unlisted address reads as. -/
abbrev Memory.wf (m : Memory) : Prop :=
  m.Pairwise (fun a b => a.1 < b.1) ∧ ∀ c ∈ m, c.1 < Config.memSize ∧ c.2 ≠ 0#8

/-- The display: 32 rows from the top, each of 64 pixels from the left, `true` for a pixel that is on (R32). -/
abbrev Display := Vector (Vector Bool 64) 32

/-- Every pixel off. -/
def Display.clear : Display := Vector.replicate 32 (Vector.replicate 64 false)

/-- The complete state of the engine (R20). The opcode, its fields and the random byte are not state (R34). -/
structure State where
  /-- `V[0]` to `V[15]`, the general registers; `V[15]` is also the flag VF (R21, R22). -/
  v : Vector Byte 16
  /-- `I`, the index register: 16 bits stored, 12 significant (R25). -/
  i : Word
  /-- The program counter, 16 bits, not masked (R26). -/
  pc : Word
  /-- The return stack (R29). -/
  stack : Vector Word 16
  /-- The index of the next free stack slot, 0 to 16 (R30). -/
  sp : Fin 17
  /-- The 4096 bytes of memory (R60). -/
  mem : Memory
  /-- The display buffer (R32). -/
  disp : Display
  /-- The keypad register: bit k is set when key k is pressed (R32). -/
  keys : Word
  /-- `DT`, the delay timer (R31). -/
  dt : Byte
  /-- `ST`, the sound timer (R31). -/
  st : Byte
  /-- Is the engine in WAIT_KEY mode (R33, R121)? -/
  waiting : Bool
  /-- The `X` of the FX0A that entered WAIT_KEY mode (R33). -/
  waitX : Nibble
  /-- The keypad as the last WAIT_KEY observation saw it (R33). -/
  prevKeys : Word
  /-- The MODEL's own field, not the spec's: how many free values have been drawn. It only picks the argument of
  `Config.randByte` (and of `Config.keyChoice`), so that each draw has a value of its own (R127, R184; log entry 1). Its
  reset value is a DESIGN CHOICE on which no statement rests (log entry 4). -/
  draws : Nat
  deriving DecidableEq, Repr

/-- The five conditions (R260), the only ways an operation fails. A condition is the result of the operation, it changes
no state (R268) and it is not recorded (R269). Each is the spec's own outcome, so raising it is exact; ending a run at it
is safe (R271). -/
inductive Fault where
  /-- Raised by the host operation `load` alone, when the program is longer than 3584 bytes (R261). Safe. -/
  | oversizedProgram
  /-- Raised by the fetch of `step` in RUN mode, when `pc` is above 0x0FFE (R262). Safe. -/
  | outOfBounds (pc : Word)
  /-- Raised by the decode of `step`: the word `op` fetched at `pc` is no instruction (R263). Safe. -/
  | unknownOpcode (op pc : Word)
  /-- Raised by 2NNN when the stack holds 16 return addresses (R264). Safe. -/
  | stackOverflow
  /-- Raised by 00EE when the stack is empty (R265). Safe. -/
  | stackUnderflow
  deriving DecidableEq, Repr

/-- Reasons for which the model gives an instruction no meaning. -/
inductive Refusal where
  /-- Raised by `exec` for an instruction whose meaning is not written yet. No arm of `exec` does so now. Safe. -/
  | notModelled (mnemonic : String)
  deriving DecidableEq, Repr

/-- The machine right after reset: what a successful `load` leaves (R36), for the font of 80 zero bytes and the empty
program, so that memory lists nothing. The spec gives the engine no font and no program of its own (R302); that choice is a
DESIGN CHOICE, unsafe (log entry 2). Every field but `draws` has the value R36 states. -/
def State.reset : State where
  v := Vector.replicate 16 0#8
  i := 0#16
  pc := 0x0200#16
  stack := Vector.replicate 16 0#16
  sp := 0
  mem := []
  disp := Display.clear
  keys := 0#16
  dt := 0#8
  st := 0#8
  waiting := false
  waitX := 0#4
  prevKeys := 0#16
  draws := 0

end Sys2Proof.Machine
end

