-- ==== Sys2Proof/Machine/Ops.lean ====
section
/-! DEFINITION. The named operations over the state: memory, registers, program counter, stack, display, the fetch, and
raising a condition. Every meaning is written over these. -/

namespace Sys2Proof.Machine

/-- What an operation of the engine answers: the state after it, or a condition (R14, R37). -/
abbrev Result := Host.Outcome State Fault Refusal

/-! ### Conditions -/

/-- `raise` of R14, the one way an operation fails: it answers the condition and no state, so the state stays what it was
(R268). There is no trap entry, no handler, no saved register and no return from one (R269, R270). -/
def raise (c : Fault) : Result := .fault c

/-! ### Memory (R13, R60, R68) -/

/-- The byte at an address; an unlisted address reads as 0x00. -/
def Memory.read : Memory → Nat → Byte
  | [], _ => 0#8
  | (b, w) :: rest, a => if b = a then w else Memory.read rest a

/-- Memory with no entry at the address. -/
def Memory.erase (m : Memory) (a : Nat) : Memory := m.filter fun c => c.1 != a

/-- The entry put in its place by address. -/
def Memory.insert : Memory → Nat → Byte → Memory
  | [], a, w => [(a, w)]
  | (b, u) :: rest, a, w => if a < b then (a, w) :: (b, u) :: rest else (b, u) :: Memory.insert rest a w

/-- Memory with the byte at the address replaced; a byte 0x00 is kept by listing nothing. -/
def Memory.write (m : Memory) (a : Nat) (w : Byte) : Memory :=
  if w = 0#8 then m.erase a else (m.erase a).insert a w

/-- Memory that holds the bytes at consecutive addresses from `a` and 0x00 elsewhere. -/
def Memory.image : Nat → List Byte → Memory
  | _, [] => []
  | a, b :: bs => if b = 0#8 then Memory.image (a + 1) bs else (a, b) :: Memory.image (a + 1) bs

/-- `mem[a]` (R13). -/
def State.readByte (s : State) (a : Addr) : Byte := s.mem.read a.toNat

/-- `mem[a] <- w` (R13). -/
def State.writeByte (s : State) (a : Addr) (w : Byte) : State := { s with mem := s.mem.write a.toNat w }

/-! ### Registers (R12, R21) -/

/-- `V[x]`. -/
def State.reg (s : State) (x : Nibble) : Byte := s.v[x.toNat]

/-- `V[x] <- w`. -/
def State.setReg (s : State) (x : Nibble) (w : Byte) : State := { s with v := s.v.set x.toNat w }

/-- `I <- w`. -/
def State.setI (s : State) (w : Word) : State := { s with i := w }

/-- `DT <- w`. -/
def State.setDt (s : State) (w : Byte) : State := { s with dt := w }

/-- `ST <- w`. -/
def State.setSt (s : State) (w : Byte) : State := { s with st := w }

/-- `disp <- d`. -/
def State.setDisp (s : State) (d : Display) : State := { s with disp := d }

/-! ### Program counter (R27, R124) -/

/-- `pc <- w`. -/
def State.setPc (s : State) (w : Word) : State := { s with pc := w }

/-- `pc <- pc + 2`, to the next instruction. -/
def State.advance (s : State) : State := s.setPc (s.pc + 2#16)

/-- `pc <- c ? pc + 4 : pc + 2`, the skip. -/
def State.skipIf (s : State) (c : Bool) : State := s.setPc (if c then s.pc + 4#16 else s.pc + 2#16)

/-! ### Return stack (R30, R150, R152) -/

/-- Push a return address; `none` when all 16 slots are in use. -/
def State.push (s : State) (ret : Word) : Option State :=
  if h : s.sp.val < 16 then
    some { s with stack := s.stack.set s.sp.val ret, sp := ⟨s.sp.val + 1, by omega⟩ }
  else none

/-- Pop the top return address; `none` when the stack is empty. The slot keeps its value (R30). -/
def State.pop (s : State) : Option (Word × State) :=
  if h : 0 < s.sp.val then
    some (s.stack[s.sp.val - 1], { s with sp := ⟨s.sp.val - 1, by omega⟩ })
  else none

/-! ### Display (R32) -/

/-- `disp[y][x]`. -/
def Display.pixel (d : Display) (x : Fin 64) (y : Fin 32) : Bool := d[y][x]

/-- `disp[y][x] <- disp[y][x] ^ 1`. -/
def Display.toggle (d : Display) (x : Fin 64) (y : Fin 32) : Display := d.set y (d[y].set x (!d[y][x]))

/-! ### Fetch and decode (R122, R123) -/

/-- The opcode at `pc`, whatever the parity of `pc`; `none` when `pc` or `pc + 1` is outside memory (R122). -/
def State.fetch (s : State) : Option Word :=
  if Config.lastFetch < s.pc.toNat then none
  else some (opcodeOf (s.readByte (BitVec.ofNat 12 s.pc.toNat)) (s.readByte (BitVec.ofNat 12 (s.pc.toNat + 1))))

/-- The instruction at `pc`, or the condition that the fetch or the decoder raises (R122, R123, R267). -/
def State.fetchInstr (s : State) : Except Fault Instr :=
  match s.fetch with
  | none => .error (.outOfBounds s.pc)
  | some op =>
    match decode op with
    | none => .error (.unknownOpcode op s.pc)
    | some i => .ok i

end Sys2Proof.Machine
end

