-- ==== Sys2Proof/Machine/Flags.lean ====
section
/-! DEFINITION. The flag computations. The only flag is VF, register 15 (R23), and an instruction that sets it computes its
result and its flag from the values before it, writes V[X], and writes VF last (R24). -/

namespace Sys2Proof.Machine

/-- The number of VF. -/
abbrev vf : Nibble := 0xF#4

/-- A flag as the value VF gets: 1 or 0 (R23). -/
def flagByte (c : Bool) : Byte := if c then 1#8 else 0#8

/-- The 8-bit sum, and whether it exceeded 255 (R176). -/
def addFlag (x y : Byte) : Byte × Bool := (BitVec.ofNat 8 (x.toNat + y.toNat), decide (255 < x.toNat + y.toNat))

/-- The 8-bit difference `x - y`, and whether no borrow was needed (R177, R182). -/
def subFlag (x y : Byte) : Byte × Bool :=
  (BitVec.ofNat 8 (x.toNat + 256 - y.toNat), decide (y.toNat ≤ x.toNat))

/-- The value shifted right by one, and the bit shifted out (R178). -/
def shrFlag (x : Byte) : Byte × Bool := (x >>> 1, x.getLsbD 0)

/-- The value shifted left by one, and the bit shifted out (R180). -/
def shlFlag (x : Byte) : Byte × Bool := (x <<< 1, x.getLsbD 7)

/-- Write the result to V[x], then the flag to VF, so that for x = 15 the flag stays (R24). -/
def State.setRegFlag (s : State) (x : Nibble) (r : Byte × Bool) : State :=
  (s.setReg x r.1).setReg vf (flagByte r.2)

end Sys2Proof.Machine
end

