-- ==== Sys2Proof/Machine/Alu.lean ====
section
/-! DEFINITION. Load, arithmetic, logic, shift and random instructions: 6XNN, 7XNN, 8XY0 to 8XY7, 8XYE, CXNN (R170 to
R184). None raises a condition. -/

namespace Sys2Proof.Machine

/-- 6XNN `LD VX, NN` (R170). -/
def execLdImm (x : Nibble) (nn : Byte) (s : State) : Result := .next (s.setReg x nn).advance

/-- 7XNN `ADD VX, NN` (R171): wraps, and VF is no flag here. -/
def execAddImm (x : Nibble) (nn : Byte) (s : State) : Result := .next (s.setReg x (addFlag (s.reg x) nn).1).advance

/-- 8XY0 `LD VX, VY` (R172). -/
def execLdReg (x y : Nibble) (s : State) : Result := .next (s.setReg x (s.reg y)).advance

/-- 8XY1 `OR VX, VY` (R173): VF is not touched. -/
def execOrReg (x y : Nibble) (s : State) : Result := .next (s.setReg x (s.reg x ||| s.reg y)).advance

/-- 8XY2 `AND VX, VY` (R174): VF is not touched. -/
def execAndReg (x y : Nibble) (s : State) : Result := .next (s.setReg x (s.reg x &&& s.reg y)).advance

/-- 8XY3 `XOR VX, VY` (R175): VF is not touched. -/
def execXorReg (x y : Nibble) (s : State) : Result := .next (s.setReg x (s.reg x ^^^ s.reg y)).advance

/-- 8XY4 `ADD VX, VY` (R176). -/
def execAddReg (x y : Nibble) (s : State) : Result := .next (s.setRegFlag x (addFlag (s.reg x) (s.reg y))).advance

/-- 8XY5 `SUB VX, VY` (R177). -/
def execSubReg (x y : Nibble) (s : State) : Result := .next (s.setRegFlag x (subFlag (s.reg x) (s.reg y))).advance

/-- 8XY6 `SHR VX` (R178): VX itself is shifted, Y is ignored (R98). -/
def execShr (x _y : Nibble) (s : State) : Result := .next (s.setRegFlag x (shrFlag (s.reg x))).advance

/-- 8XY7 `SUBN VX, VY` (R179). -/
def execSubn (x y : Nibble) (s : State) : Result := .next (s.setRegFlag x (subFlag (s.reg y) (s.reg x))).advance

/-- 8XYE `SHL VX` (R180): VX itself is shifted, Y is ignored (R98). -/
def execShl (x _y : Nibble) (s : State) : Result := .next (s.setRegFlag x (shlFlag (s.reg x))).advance

/-- CXNN `RND VX, NN` (R184): the random byte is a free value, a new one for each execution (R127). -/
def execRnd (x : Nibble) (nn : Byte) (s : State) : Result :=
  .next ({ s with draws := s.draws + 1 }.setReg x (Config.randByte s.draws &&& nn)).advance

end Sys2Proof.Machine
end

