-- ==== Sys2Proof/Machine/Operands.lean ====
section
/-! DEFINITION. The operand forms: the one addressing mode (R206), the block transfers, the jump target of BNNN, the glyph
address, the key index, the newly pressed keys, and the pixels of a sprite. Where R8 leaves a parameter open the operation
takes it as an argument and gives each reading that the spec describes. -/

namespace Sys2Proof.Machine

/-! ### Memory operands (R64, R206) -/

/-- The address of the byte at offset `k` of a transfer, `(I + k) & 0x0FFF` (R64). -/
def dataAddr (i : Word) (k : Nat) : Addr := BitVec.ofNat 12 (i.toNat + k)

/-- Write the bytes at offsets `k`, `k + 1`, … from `I`, in ascending order (R63, R70). -/
def State.writeBytes (s : State) (k : Nat) : List Byte → State
  | [] => s
  | b :: bs => (s.writeByte (dataAddr s.i k) b).writeBytes (k + 1) bs

/-- Write V0, V1, … (`n` registers) at offsets 0, 1, … from `I` (R204). -/
def State.storeRegs (s : State) : Nat → State
  | 0 => s
  | n + 1 => (s.storeRegs n).writeByte (dataAddr s.i n) (s.reg (BitVec.ofNat 4 n))

/-- Load V0, V1, … (`n` registers) from offsets 0, 1, … from `I` (R205). -/
def State.loadRegs (s : State) : Nat → State
  | 0 => s
  | n + 1 => (s.loadRegs n).setReg (BitVec.ofNat 4 n) (s.readByte (dataAddr s.i n))

/-- The decimal digits of a byte, hundreds, tens, ones, each a byte of its own (R203). -/
def bcdDigits (x : Byte) : List Byte :=
  [BitVec.ofNat 8 (x.toNat / 100), BitVec.ofNat 8 (x.toNat / 10 % 10), BitVec.ofNat 8 (x.toNat % 10)]

/-! ### Jump target of BNNN (R153) -/

/-- `NNN + V0` in 16 bits; with `JUMP_V0_MASK` the sum is masked to 12 bits. -/
def jumpV0Target (mask : Bool) (nnn : Addr) (v0 : Byte) : Word :=
  if mask then (nnn.toWord + v0.toWord) &&& 0x0FFF#16 else nnn.toWord + v0.toWord

/-! ### Glyph address of FX29 (R202) -/

/-- The glyph number FX29 takes from VX. -/
def fontDigit (mode : FontDigitMode) (x : Byte) : Nat :=
  match mode with
  | .fullByte => x.toNat
  | .lowNibble => (x &&& 0x0F#8).toNat

/-- `0x050 + 5 * digit`. -/
def fontAddr (mode : FontDigitMode) (x : Byte) : Word :=
  BitVec.ofNat 16 (Config.fontBase + Config.glyphLen * fontDigit mode x)

/-! ### Keys (R242, R244) -/

/-- Is the key that VX names pressed (R240, R242)? -/
def keyPressed (mode : KeyIndexMode) (keys : Word) (x : Byte) : Bool :=
  match mode with
  | .lowNibble => keys.getLsbD (x &&& 0x0F#8).toNat
  | .notPressed => decide (x.toNat < 16) && keys.getLsbD x.toNat

/-- The keys that are down now and were up at the last observation, `keys & ~prev_keys` (R244). -/
def newKeys (keys prevKeys : Word) : Word := keys &&& ~~~prevKeys

/-- The keys whose bit is set, from key 0 upwards. -/
def pressedKeys (keys : Word) : List Nibble :=
  ((List.range 16).filter fun k => keys.getLsbD k).map fun k => BitVec.ofNat 4 k

/-- The key FX0A takes of those newly pressed, if there is one (R244 and its corner case (c)). -/
def pickKey (mode : WaitKeyPick) (draw : Nat) (new : Word) : Option Nibble :=
  match mode with
  | .lowest => (pressedKeys new).head?
  | .anyPressed => (pressedKeys new)[Config.keyChoice draw % (pressedKeys new).length]?

/-- The draw counter after a pick: only the free choice uses a draw. -/
def drawsAfterPick (mode : WaitKeyPick) (draw : Nat) : Nat :=
  match mode with
  | .lowest => draw
  | .anyPressed => draw + 1

/-! ### Sprites (R221, R222) -/

/-- The pixel that row `r`, column `c` of a sprite at (`vx`, `vy`) falls on; `none` if it is clipped away. -/
def spritePixel (mode : DrawMode) (vx vy : Byte) (r c : Nat) : Option (Fin 64 × Fin 32) :=
  match mode with
  | .wrapPixels => some (Fin.ofNat 64 (vx.toNat + c), Fin.ofNat 32 (vy.toNat + r))
  | .clipAtEdge =>
    if h : vx.toNat % 64 + c < 64 ∧ vy.toNat % 32 + r < 32 then
      some (⟨vx.toNat % 64 + c, h.1⟩, ⟨vy.toNat % 32 + r, h.2⟩)
    else none

/-- Toggle one pixel and note whether it went from on to off. -/
def drawPixel (d : Display × Bool) : Option (Fin 64 × Fin 32) → Display × Bool
  | none => d
  | some (x, y) => (d.1.toggle x y, d.2 || d.1.pixel x y)

/-- Draw the first `c` columns of row `r`: bit 7 of the row's byte is the leftmost column (R222). -/
def drawRow (mode : DrawMode) (vx vy : Byte) (r : Nat) (b : Byte) (d : Display × Bool) : Nat → Display × Bool
  | 0 => d
  | c + 1 =>
    if b.getLsbD (7 - c) then drawPixel (drawRow mode vx vy r b d c) (spritePixel mode vx vy r c)
    else drawRow mode vx vy r b d c

/-- Draw the first `r` rows of the sprite at `I`: the display after it, and the collision (R221). -/
def drawSprite (mode : DrawMode) (s : State) (vx vy : Byte) : Nat → Display × Bool
  | 0 => (s.disp, false)
  | r + 1 => drawRow mode vx vy r (s.readByte (dataAddr s.i r)) (drawSprite mode s vx vy r) 8

end Sys2Proof.Machine
end

