-- ==== Sys2Proof/Machine/Display.lean ====
section
/-! DEFINITION. Display instructions: 00E0 and DXYN (R220, R221). Neither raises a condition. -/

namespace Sys2Proof.Machine

/-- 00E0 `CLS` (R220): VF is not touched. -/
def execCls (s : State) : Result := .next (s.setDisp Display.clear).advance

/-- DXYN `DRW VX, VY, N` (R221): the coordinates are read before VF is written, and VF is always written. -/
def execDrw (x y n : Nibble) (s : State) : Result :=
  .next ((s.setDisp (drawSprite Config.drawMode s (s.reg x) (s.reg y) n.toNat).1).setReg vf
    (flagByte (drawSprite Config.drawMode s (s.reg x) (s.reg y) n.toNat).2)).advance

end Sys2Proof.Machine
end

