-- ==== Sys2Proof/Machine/Flow.lean ====
section
/-! DEFINITION. Control transfer and stack instructions: 00EE, 1NNN, 2NNN, BNNN, 3XNN, 4XNN, 5XY0, 9XY0 (R150 to R157). -/

namespace Sys2Proof.Machine

/-- 00EE `RET` (R150): `pc` gets the popped entry as it is. -/
def execRet (s : State) : Result :=
  match s.pop with
  | none => raise .stackUnderflow
  | some (ret, t) => .next (t.setPc ret)

/-- 1NNN `JP NNN` (R151). -/
def execJp (nnn : Addr) (s : State) : Result := .next (s.setPc nnn.toWord)

/-- 2NNN `CALL NNN` (R152): the address after the call is pushed. -/
def execCall (nnn : Addr) (s : State) : Result :=
  match s.push (s.pc + 2#16) with
  | none => raise .stackOverflow
  | some t => .next (t.setPc nnn.toWord)

/-- BNNN `JP V0, NNN` (R153). -/
def execJpV0 (nnn : Addr) (s : State) : Result := .next (s.setPc (jumpV0Target Config.jumpV0Mask nnn (s.reg 0#4)))

/-- 3XNN `SE VX, NN` (R154). -/
def execSeImm (x : Nibble) (nn : Byte) (s : State) : Result := .next (s.skipIf (s.reg x == nn))

/-- 4XNN `SNE VX, NN` (R155). -/
def execSneImm (x : Nibble) (nn : Byte) (s : State) : Result := .next (s.skipIf (s.reg x != nn))

/-- 5XY0 `SE VX, VY` (R156). -/
def execSeReg (x y : Nibble) (s : State) : Result := .next (s.skipIf (s.reg x == s.reg y))

/-- 9XY0 `SNE VX, VY` (R157). -/
def execSneReg (x y : Nibble) (s : State) : Result := .next (s.skipIf (s.reg x != s.reg y))

end Sys2Proof.Machine
end

