-- ==== Sys2Proof/Machine/Index.lean ====
section
/-! DEFINITION. Index register and memory instructions: ANNN, FX1E, FX29, FX33, FX55, FX65 (R200 to R205). None raises a
condition, and FX33, FX55 and FX65 do not change `I`. -/

namespace Sys2Proof.Machine

/-- ANNN `LD I, NNN` (R200). -/
def execLdI (nnn : Addr) (s : State) : Result := .next (s.setI nnn.toWord).advance

/-- FX1E `ADD I, VX` (R201): wraps modulo 4096, and VF is no flag here. -/
def execAddI (x : Nibble) (s : State) : Result := .next (s.setI ((s.i + (s.reg x).toWord) &&& 0x0FFF#16)).advance

/-- FX29 `LD F, VX` (R202). -/
def execLdFont (x : Nibble) (s : State) : Result := .next (s.setI (fontAddr Config.fontDigitMode (s.reg x))).advance

/-- FX33 `LD B, VX` (R203). -/
def execBcd (x : Nibble) (s : State) : Result := .next (s.writeBytes 0 (bcdDigits (s.reg x))).advance

/-- FX55 `LD [I], VX` (R204): V0 to VX inclusive. -/
def execStore (x : Nibble) (s : State) : Result := .next (s.storeRegs (x.toNat + 1)).advance

/-- FX65 `LD VX, [I]` (R205): V0 to VX inclusive. -/
def execLoad (x : Nibble) (s : State) : Result := .next (s.loadRegs (x.toNat + 1)).advance

end Sys2Proof.Machine
end

