-- ==== Sys2Proof/Machine/Keypad.lean ====
section
/-! DEFINITION. Keypad instructions EX9E, EXA1, FX0A and the step of WAIT_KEY mode (R240 to R244). None raises a
condition. -/

namespace Sys2Proof.Machine

/-- EX9E `SKP VX` (R240). -/
def execSkp (x : Nibble) (s : State) : Result := .next (s.skipIf (keyPressed Config.keyIndexMode s.keys (s.reg x)))

/-- EXA1 `SKNP VX` (R241). -/
def execSknp (x : Nibble) (s : State) : Result := .next (s.skipIf (!keyPressed Config.keyIndexMode s.keys (s.reg x)))

/-- FX0A `LD VX, K` (R243), the RUN step that fetches it: enter WAIT_KEY mode with a snapshot of the keypad. `pc` is held. -/
def execLdKey (x : Nibble) (s : State) : Result := .next { s with waiting := true, waitX := x, prevKeys := s.keys }

/-- The step of WAIT_KEY mode (R244): nothing is fetched; a key newly pressed completes the FX0A, and otherwise the keypad
is only observed. -/
def waitKeyStep (s : State) : Result :=
  match pickKey Config.waitKeyPick s.draws (newKeys s.keys s.prevKeys) with
  | some k =>
    .next ({ s with
      waiting := false, prevKeys := s.keys, draws := drawsAfterPick Config.waitKeyPick s.draws }.setReg s.waitX k.toByte).advance
  | none => .next { s with prevKeys := s.keys }

end Sys2Proof.Machine
end

