-- ==== Sys2Proof/Machine/Timer.lean ====
section
/-! DEFINITION. Timer instructions FX07, FX15, FX18 (R245 to R247) and the timer tick (R249). None raises a condition. -/

namespace Sys2Proof.Machine

/-- FX07 `LD VX, DT` (R245). -/
def execLdFromDt (x : Nibble) (s : State) : Result := .next (s.setReg x s.dt).advance

/-- FX15 `LD DT, VX` (R246). -/
def execLdDt (x : Nibble) (s : State) : Result := .next (s.setDt (s.reg x)).advance

/-- FX18 `LD ST, VX` (R247). -/
def execLdSt (x : Nibble) (s : State) : Result := .next (s.setSt (s.reg x)).advance

/-- One tick of a timer: down by one, held at 0 (R249). -/
def countDown (t : Byte) : Byte := if t = 0#8 then 0#8 else t - 1#8

/-- `tick_timers()` (R249): each timer on its own, nothing else. -/
def tickTimers (s : State) : State := (s.setDt (countDown s.dt)).setSt (countDown s.st)

end Sys2Proof.Machine
end

