-- ==== Sys2Proof/Machine/Step.lean ====
section
/-! DEFINITION. One step (R120), and the state whose next step runs a given word. -/

namespace Sys2Proof.Machine

/-- `step` (R120): in WAIT_KEY mode look for a key press and fetch nothing; in RUN mode fetch, decode and execute one
instruction. -/
def step (s : State) : Host.Outcome State Fault Refusal :=
  if s.waiting then waitKeyStep s
  else
    match s.fetchInstr with
    | .error c => raise c
    | .ok i => exec i s

/-- The address a word is placed at so that the next step fetches it: `pc`, or where a program starts when `pc` is outside
what a fetch accepts (R122). -/
def State.fetchPlace (s : State) : Word := if Config.lastFetch < s.pc.toNat then BitVec.ofNat 16 Config.progBase else s.pc

/-- `s` with the opcode `w` (of `nbits` bits, numbered from the least significant) where the next step fetches it, high
byte first (R62), and in RUN mode, since a WAIT_KEY step fetches nothing. Nothing else is changed: `pc` moves only when no
fetch could be made from it. -/
def State.withFetchWord (s : State) (nbits w : Nat) : State :=
  (({ s with waiting := false }.setPc s.fetchPlace).writeByte
      (BitVec.ofNat 12 s.fetchPlace.toNat) (highByte (BitVec.ofNat 16 (w % 2 ^ nbits)))).writeByte
    (BitVec.ofNat 12 (s.fetchPlace.toNat + 1)) (lowByte (BitVec.ofNat 16 (w % 2 ^ nbits)))

end Sys2Proof.Machine
end

