-- ==== Sys2Proof/Machine/HostOps.lean ====
section
/-! DEFINITION. The host's side of the engine (R15, R37): the four operations by which its state changes, the sequences of
operations a host can make (R250, R276), and the observations the host takes. -/

namespace Sys2Proof.Machine

/-- The font table, an array of exactly 80 bytes (R301, D28). -/
abbrev Font := Vector Byte 80

/-- `load(font, program)` (R300), the only reset. The size check comes first (R301). `draws` is not the engine's state and
is kept, so that no reset makes a random byte come back. -/
def load (font : Font) (program : List Byte) (s : State) : Result :=
  if Config.maxProg < program.length then raise .oversizedProgram
  else
    .next { State.reset with
      mem := Memory.image Config.fontBase font.toList ++ Memory.image Config.progBase program, draws := s.draws }

/-- `set_keys(k)` (R248): bit i of `k` is set when key i is down. -/
def setKeys (k : Word) (s : State) : State := { s with keys := k }

/-- One operation of the host on the engine (R15, R37). The random byte that the spec passes to `step` is a free value
(`Config.randByte`). -/
inductive Operation where
  | load (font : Font) (program : List Byte)
  | setKeys (k : Word)
  | step
  | tickTimers
  deriving DecidableEq, Repr

/-- The result of one operation; each is atomic (R70). -/
def perform (o : Operation) (s : State) : Result :=
  match o with
  | .load font program => load font program s
  | .setKeys k => .next (setKeys k s)
  | .step => step s
  | .tickTimers => .next (tickTimers s)

/-- The state after an operation: when it raises a condition, the state before it (R268). -/
def State.after (s : State) (o : Operation) : State :=
  match perform o s with
  | .next t => t
  | .fault _ => s
  | .refused _ => s

/-- The state after a sequence of operations of a host that goes on after a condition (R270). -/
def State.afterAll (s : State) : List Operation → State
  | [] => s
  | o :: os => (s.after o).afterAll os

/-- The result of a sequence of operations of a host that stops at the first condition (R271). -/
def performAll : List Operation → State → Result
  | [], s => .next s
  | o :: os, s =>
    match perform o s with
    | .next t => performAll os t
    | .fault c => .fault c
    | .refused r => .refused r

/-! ### Observations (R37) -/

/-- `display`: the pixel in column `x`, row `y`. -/
def State.display (s : State) (x : Fin 64) (y : Fin 32) : Bool := s.disp.pixel x y

/-- `sound_active`: is `ST` above 0? -/
def State.soundActive (s : State) : Bool := decide (0 < s.st.toNat)

end Sys2Proof.Machine
end

