-- ==== Sys2Proof/Safety.lean ====
section
/-! DEFINITION. The terms the statements use: what an operation leaves unchanged, the invariant of R38, which instructions
branch or skip, which pixels a sprite covers, and what a safe run is. -/

namespace Sys2Proof.Machine

/-! ### Frames -/

/-- The fields of the state. -/
inductive Field where
  | v | i | pc | stack | sp | mem | disp | keys | dt | st | waiting | waitX | prevKeys | draws
  deriving DecidableEq, Repr

/-- The field holds in `t` what it held in `s`; for memory, every byte reads as before. -/
def Field.same (f : Field) (s t : State) : Prop :=
  match f with
  | .v => t.v = s.v
  | .i => t.i = s.i
  | .pc => t.pc = s.pc
  | .stack => t.stack = s.stack
  | .sp => t.sp = s.sp
  | .mem => ∀ a : Addr, t.readByte a = s.readByte a
  | .disp => t.disp = s.disp
  | .keys => t.keys = s.keys
  | .dt => t.dt = s.dt
  | .st => t.st = s.st
  | .waiting => t.waiting = s.waiting
  | .waitX => t.waitX = s.waitX
  | .prevKeys => t.prevKeys = s.prevKeys
  | .draws => t.draws = s.draws

/-- Every field outside `changed` is the same in `t` as in `s`. -/
def KeptBut (changed : List Field) (s t : State) : Prop := ∀ f, f ∉ changed → f.same s t

/-! ### The invariant (R38) -/

/-- R38: `I` has at most 12 significant bits, `pc` is at most 0x10FE, every stack entry is at most 0x1000, and in WAIT_KEY
mode `pc` stands at the FX0A that entered it. (`sp` is at most 16 by its type.) Memory is in its canonical form, which is
the model's own. -/
abbrev State.Inv (s : State) : Prop :=
  s.i.toNat ≤ 0x0FFF ∧ s.pc.toNat ≤ 0x10FE ∧ (∀ k : Fin 16, s.stack[k].toNat ≤ 0x1000) ∧ s.mem.wf ∧
    (s.waiting = true → s.pc.toNat ≤ 0x0FFE ∧ s.fetchInstr = .ok (.ldKey s.waitX))

/-! ### Steps -/

/-- The two bytes at `pc` as an opcode, high byte first (R62). -/
def State.opcodeAt (s : State) : Word :=
  opcodeOf (s.readByte (BitVec.ofNat 12 s.pc.toNat)) (s.readByte (BitVec.ofNat 12 (s.pc.toNat + 1)))

/-- Is the step in RUN mode, with an opcode at `pc` that decodes to `i`? -/
def State.runs (s : State) (i : Instr) : Prop :=
  s.waiting = false ∧ s.pc.toNat ≤ 0x0FFE ∧ decode s.opcodeAt = some i

/-- Is the condition of a skip instruction met; `none` for every other instruction (R154 to R157, R240, R241)? -/
def skipTaken (i : Instr) (s : State) : Option Bool :=
  match i with
  | .seImm x nn => some (decide (s.reg x = nn))
  | .sneImm x nn => some (decide (s.reg x ≠ nn))
  | .seReg x y => some (decide (s.reg x = s.reg y))
  | .sneReg x y => some (decide (s.reg x ≠ s.reg y))
  | .skp x => some (s.keys.getLsbD ((s.reg x).toNat % 16))
  | .sknp x => some (!s.keys.getLsbD ((s.reg x).toNat % 16))
  | _ => none

/-- The opcodes that R125 counts as branching, the skips apart: they set `pc` themselves or hold it. -/
def setsPc (i : Instr) : Bool :=
  match i with
  | .jp _ | .call _ | .jpV0 _ | .ret | .ldKey _ => true
  | _ => false

/-- The instructions that write VF as a flag (R23). -/
def writesFlag (i : Instr) : Bool :=
  match i with
  | .addReg _ _ | .subReg _ _ | .shr _ _ | .subn _ _ | .shl _ _ | .drw _ _ _ => true
  | _ => false

/-- Does the instruction name register `r` as a destination, its flag write apart (R23)? -/
def namesDest (i : Instr) (r : Nibble) : Bool :=
  match i with
  | .ldImm x _ | .addImm x _ | .ldReg x _ | .orReg x _ | .andReg x _ | .xorReg x _ | .addReg x _ | .subReg x _
  | .shr x _ | .subn x _ | .shl x _ | .rnd x _ | .ldFromDt x => x == r
  | .load x => decide (r.toNat ≤ x.toNat)
  | _ => false

/-- The result with its state, if there is one, changed by `f`. -/
def mapNext (f : State → State) : Result → Result
  | .next t => .next (f t)
  | .fault c => .fault c
  | .refused r => .refused r

/-! ### Sprites (R221, R222) -/

/-- Some set bit of the `n`-byte sprite at `I`, drawn at (`vx`, `vy`) with wrapping coordinates, falls on the pixel in column
`px`, row `py`. -/
def Covers (s : State) (vx vy : Byte) (n : Nat) (px : Fin 64) (py : Fin 32) : Prop :=
  ∃ r c : Nat, r < n ∧ c < 8 ∧ (vx.toNat + c) % 64 = px.val ∧ (vy.toNat + r) % 32 = py.val ∧
    (s.readByte (dataAddr s.i r)).getLsbD (7 - c) = true

/-! ### Safe runs (R271) -/

/-- No operation of the sequence raises a condition. -/
def RunsSafely (os : List Operation) (s : State) : Prop := ∃ t, performAll os s = .next t

/-- The operation is no `load`. -/
def Operation.isLoad : Operation → Bool
  | .load _ _ => true
  | _ => false

end Sys2Proof.Machine
end

