-- ==== Sys2Proof/Certificates/Slice0/Obligations.lean ====
section
/-! DEFINITION. The statements for the provers. Each docstring names the rule of the spec, or the spec's decision and the
entry of the assumption log, that the statement rests on. -/

open Sys2Proof Sys2Proof.Machine

/-! ### Encoding -/

/-- Decoding the encoding of any instruction, with every operand at every value, gives the instruction back (R92, R94,
R96). -/
def Obligations.EncodeThenDecode : Prop := ∀ i : Instr, decode (encode i) = some i

/-- An opcode that decodes is the encoding of what it decodes to: no bit of a defined opcode is dropped, the ignored `Y` of
8XY6 and 8XYE among them (R94, R98, R100). -/
def Obligations.DecodeThenEncode : Prop := ∀ (op : Word) (i : Instr), decode op = some i → encode i = op

/-- The decoder answers what the opcode table answers (R94, R96): what an opcode decodes to belongs to a row that selects
it, and an opcode decodes exactly when some row selects it. -/
def Obligations.DecoderFollowsOpcodeTable : Prop :=
  ∀ op : Word,
    (∀ i, decode op = some i → i.row ∈ opcodeRows ∧ i.row.selects op = true) ∧
      ((∃ i, decode op = some i) ↔ wellFormedWord op = true)

/-- The table has 34 different rows, and no opcode is selected by two of them. The spec marks this as its own inference
("The 34 patterns are pairwise disjoint", [derived: from rule R96]). -/
def Obligations.OpcodeRowsDisjoint : Prop :=
  opcodeRows.length = 34 ∧ opcodeRows.Nodup ∧
    ∀ (op : Word) (r q : Row), r ∈ opcodeRows → q ∈ opcodeRows → r.selects op = true → q.selects op = true → r = q

/-- The unknown opcodes are exactly the six families listed in section 4 of 30_encoding.md; that 9XYN with N ≠ 0 and 0NNN
are among them is the spec's decision D31 (log entry 17). -/
def Obligations.UnknownOpcodesAreThoseListed : Prop :=
  ∀ op : Word, decode op = none ↔
    (fieldFamily op = 0x0#4 ∧ op ≠ 0x00E0#16 ∧ op ≠ 0x00EE#16) ∨
    (fieldFamily op = 0x5#4 ∧ fieldN op ≠ 0x0#4) ∨
    (fieldFamily op = 0x8#4 ∧ fieldN op ∈ [0x8#4, 0x9#4, 0xA#4, 0xB#4, 0xC#4, 0xD#4, 0xF#4]) ∨
    (fieldFamily op = 0x9#4 ∧ fieldN op ≠ 0x0#4) ∨
    (fieldFamily op = 0xE#4 ∧ fieldNN op ∉ [0x9E#8, 0xA1#8]) ∨
    (fieldFamily op = 0xF#4 ∧
      fieldNN op ∉ [0x07#8, 0x0A#8, 0x15#8, 0x18#8, 0x1E#8, 0x29#8, 0x33#8, 0x55#8, 0x65#8])

/-- Words written out from the table of R96 decode to the instructions they stand for (the spec's vectors T-DEC). -/
def Obligations.SampleOpcodesDecode : Prop :=
  decode 0x00E0#16 = some .cls ∧ decode 0x1FFF#16 = some (.jp 0xFFF#12) ∧
    decode 0x5120#16 = some (.seReg 0x1#4 0x2#4) ∧ decode 0x6005#16 = some (.ldImm 0x0#4 0x05#8) ∧
    decode 0x8AB5#16 = some (.subReg 0xA#4 0xB#4) ∧ decode 0xD123#16 = some (.drw 0x1#4 0x2#4 0x3#4) ∧
    decode 0xE19E#16 = some (.skp 0x1#4) ∧ decode 0xF155#16 = some (.store 0x1#4) ∧
    decode 0x5555#16 = none ∧ decode 0x0000#16 = none

/-! ### The step -/

/-- A RUN-mode step whose bytes at `pc` decode to an instruction is that instruction's handler, and nothing is done around
it: no tick, no second `pc` (R120, R124). -/
def Obligations.StepRunsDecodedInstruction : Prop :=
  ∀ (s : State) (i : Instr), s.waiting = false → s.pc.toNat ≤ 0x0FFE →
    decode (opcodeOf (s.readByte (BitVec.ofNat 12 s.pc.toNat)) (s.readByte (BitVec.ofNat 12 (s.pc.toNat + 1)))) = some i →
    step s = exec i s

/-- R120: the whole of `step`, with the opcode put together as R122 says; and it answers a next state or one of four
conditions, never a refusal. The random byte is a free value (log entry 1). -/
def Obligations.StepFollowsTheCycle : Prop :=
  ∀ s : State,
    (s.waiting = true → step s = waitKeyStep s) ∧
    (s.waiting = false → 0x0FFE < s.pc.toNat → step s = .fault (.outOfBounds s.pc)) ∧
    (s.waiting = false → s.pc.toNat ≤ 0x0FFE →
      step s =
        match decode (((s.readByte (BitVec.ofNat 12 s.pc.toNat)).setWidth 16 <<< 8) |||
            (s.readByte (BitVec.ofNat 12 (s.pc.toNat + 1))).setWidth 16) with
        | none => .fault (.unknownOpcode s.opcodeAt s.pc)
        | some i => exec i s) ∧
    ((∃ t, step s = .next t) ∨ step s = .fault (.outOfBounds s.pc) ∨
      step s = .fault (.unknownOpcode s.opcodeAt s.pc) ∨ step s = .fault .stackOverflow ∨
      step s = .fault .stackUnderflow)

/-- R122: the fetch fails exactly when `pc` is above 0x0FFE, then the step raises `OutOfBounds` and nothing changes;
otherwise it reads the two bytes at `pc`, of either parity, high byte first. -/
def Obligations.FetchChecksBounds : Prop :=
  ∀ s : State,
    (0x0FFE < s.pc.toNat → s.fetch = none ∧
      (s.waiting = false → step s = .fault (.outOfBounds s.pc) ∧ s.after .step = s)) ∧
    (s.pc.toNat ≤ 0x0FFE →
      ∃ op : Word, s.fetch = some op ∧
        op.toNat = 256 * (s.mem.read s.pc.toNat).toNat + (s.mem.read (s.pc.toNat + 1)).toNat)

/-- R263: a RUN-mode step raises `UnknownOpcode`, with the raw opcode and the `pc` it was fetched from, exactly when the
fetch succeeds and the opcode decodes to nothing; and the state stays as it was. -/
def Obligations.UnknownOpcodeRaised : Prop :=
  ∀ (s : State) (op pc : Word),
    (step s = .fault (.unknownOpcode op pc) ↔
      s.waiting = false ∧ s.pc.toNat ≤ 0x0FFE ∧ decode s.opcodeAt = none ∧ op = s.opcodeAt ∧ pc = s.pc) ∧
    (step s = .fault (.unknownOpcode op pc) → s.after .step = s)

/-- R264, R265: 2NNN with 16 return addresses on the stack raises `StackOverflow`, 00EE with none raises `StackUnderflow`,
nothing else raises them, and the state stays as it was. -/
def Obligations.StackConditionsRaised : Prop :=
  ∀ s : State,
    (step s = .fault .stackOverflow ↔ s.sp.val = 16 ∧ ∃ nnn, s.runs (.call nnn)) ∧
    (step s = .fault .stackUnderflow ↔ s.sp.val = 0 ∧ s.runs .ret) ∧
    (step s = .fault .stackOverflow ∨ step s = .fault .stackUnderflow → s.after .step = s)

/-- Exactly these steps raise a condition, in the order WAIT_KEY test, fetch, decode, execute, and no instruction but 2NNN
and 00EE raises one (60_exceptions.md; the order is the spec's decision D19, log entry 5). -/
def Obligations.StepRaisesExactlyWhen : Prop :=
  ∀ (s : State) (c : Fault), step s = .fault c ↔
    s.waiting = false ∧
      ((0x0FFE < s.pc.toNat ∧ c = .outOfBounds s.pc) ∨
        (s.pc.toNat ≤ 0x0FFE ∧
          ((decode s.opcodeAt = none ∧ c = .unknownOpcode s.opcodeAt s.pc) ∨
            ((∃ nnn, decode s.opcodeAt = some (.call nnn)) ∧ s.sp.val = 16 ∧ c = .stackOverflow) ∨
            (decode s.opcodeAt = some .ret ∧ s.sp.val = 0 ∧ c = .stackUnderflow))))

/-- After a condition of `step` the state is what it was, and whatever the host does, short of `load`, a further step
raises the same condition (the spec's decisions D4 and D5, log entry 5). -/
def Obligations.ConditionLeavesStateAndRepeats : Prop :=
  ∀ (s : State) (c : Fault) (os : List Operation), step s = .fault c → (∀ o ∈ os, o.isLoad = false) →
    s.after .step = s ∧ step (s.afterAll os) = .fault c

/-- The mode after each operation: `load` enters RUN; a RUN step enters WAIT_KEY exactly by FX0A; a WAIT_KEY step returns
to RUN exactly when it sees a new key; `set_keys` and `tick_timers` leave the mode, and so does an operation that raises a
condition (40_step_cycle.md section 1). That a new key is one down now and up at the last observation is the spec's decision
D15 (log entry 9); that a condition changes no state is its decision D4 (log entry 5). -/
def Obligations.ModeTransitions : Prop :=
  ∀ (s : State) (o : Operation),
    (∀ t, perform o s = .next t →
      (o.isLoad = true → t.waiting = false) ∧
      (o = .step → s.waiting = false → (t.waiting = true ↔ ∃ x, s.runs (.ldKey x))) ∧
      (o = .step → s.waiting = true → (t.waiting = false ↔ s.keys &&& ~~~s.prevKeys ≠ 0#16)) ∧
      (o = .tickTimers ∨ (∃ k, o = .setKeys k) → t.waiting = s.waiting)) ∧
    ∀ c, perform o s = .fault c → (s.after o).waiting = s.waiting

/-- The WAIT_KEY step (the FX0A protocol is the spec's decision D15, log entry 9): with no new key only `prev_keys`
changes; with new keys the lowest is written to V[`wait_x`], `pc` moves past the FX0A and the mode is RUN. -/
def Obligations.WaitKeyStepTakesLowestNewKey : Prop :=
  ∀ s : State, s.waiting = true →
    (s.keys &&& ~~~s.prevKeys = 0#16 → step s = .next { s with prevKeys := s.keys }) ∧
    (s.keys &&& ~~~s.prevKeys ≠ 0#16 →
      ∃ (t : State) (k : Nat), step s = .next t ∧ k < 16 ∧
        s.keys.getLsbD k = true ∧ s.prevKeys.getLsbD k = false ∧
        (∀ j < k, s.keys.getLsbD j = false ∨ s.prevKeys.getLsbD j = true) ∧
        (t.reg s.waitX).toNat = k ∧ (∀ r, r ≠ s.waitX → t.reg r = s.reg r) ∧
        t.pc = s.pc + 2#16 ∧ t.waiting = false ∧ t.prevKeys = s.keys ∧
        KeptBut [.v, .pc, .waiting, .prevKeys] s t)

/-! ### The invariant -/

/-- The state after reset meets the invariant (10_state.md section 12 and log entry 2). -/
def Obligations.ResetMeetsTheInvariant : Prop := State.reset.Inv

/-- Every step keeps the invariant, from every state that meets it (10_state.md section 12, where the spec marks it as
derived; memory's canonical form is the model's own, log entry 14). -/
def Obligations.StepKeepsTheInvariant : Prop := ∀ s t : State, s.Inv → step s = .next t → t.Inv

/-- Every sequence of the host's operations keeps the invariant, and a `load` that succeeds gives it from any state at all
(10_state.md section 12, where the spec marks it as derived). -/
def Obligations.OperationsKeepTheInvariant : Prop :=
  (∀ (font : Font) (program : List Byte) (s t : State), perform (.load font program) s = .next t → t.Inv) ∧
    ∀ (os : List Operation) (s t : State), s.Inv → performAll os s = .next t → t.Inv

/-! ### Reset and the host's operations -/

/-- What a successful `load` leaves: the font from 0x050, the program from 0x200, 0x00 in every other byte, every register,
stack entry, pixel, timer, key and latch zero, `pc` = 0x0200, RUN mode (70_reset_and_hazards.md section 1; the zero bytes
and latches are the spec's decision D16, log entry 14). -/
def Obligations.LoadLeavesTheResetState : Prop :=
  ∀ (font : Font) (program : List Byte) (s : State), program.length ≤ 3584 →
    ∃ t, perform (.load font program) s = .next t ∧
      (∀ a : Addr, t.readByte a =
        if 0x050 ≤ a.toNat ∧ a.toNat ≤ 0x09F then font.toList.getD (a.toNat - 0x050) 0#8
        else if 0x200 ≤ a.toNat then program.getD (a.toNat - 0x200) 0#8 else 0#8) ∧
      (∀ r, t.reg r = 0#8) ∧ t.i = 0#16 ∧ t.pc = 0x0200#16 ∧ t.sp.val = 0 ∧ (∀ k : Fin 16, t.stack[k] = 0#16) ∧
      (∀ x y, t.display x y = false) ∧ t.dt = 0#8 ∧ t.st = 0#8 ∧ t.keys = 0#16 ∧
      t.waiting = false ∧ t.waitX = 0#4 ∧ t.prevKeys = 0#16

/-- R261: `load` raises `OversizedProgram`, and changes nothing, exactly when the program has more than 3584 bytes; it
raises nothing else, and a step never raises it. -/
def Obligations.LoadChecksTheSize : Prop :=
  ∀ (font : Font) (program : List Byte) (s : State),
    (3584 < program.length →
      perform (.load font program) s = .fault .oversizedProgram ∧ s.after (.load font program) = s) ∧
    (program.length ≤ 3584 → ∃ t, perform (.load font program) s = .next t) ∧
    step s ≠ .fault .oversizedProgram

/-- The model's `State.reset` is what `load` leaves for a font of 80 zero bytes and the empty program, from a state that has
drawn nothing; that font and program are the model's choice (log entry 2), and so is the counter (log entry 4). -/
def Obligations.ResetIsLoadOfNothing : Prop :=
  ∀ s : State, s.draws = 0 → perform (.load (Vector.replicate 80 0#8) []) s = .next State.reset

/-- `set_keys` writes the keypad register and nothing else, in either mode (45_keypad_timers.md section 4; the register is
the spec's decision D32). -/
def Obligations.SetKeysWritesTheKeypad : Prop :=
  ∀ (k : Word) (s : State), ∃ t, perform (.setKeys k) s = .next t ∧ t.keys = k ∧ KeptBut [.keys] s t

/-- R249: a tick takes one off each timer that is above 0, each on its own, leaves a timer at 0, and changes nothing else;
and no step changes `DT` but by FX15 or `ST` but by FX18. -/
def Obligations.TicksCountDownAndStepsDoNot : Prop :=
  ∀ s : State,
    (∃ t, perform .tickTimers s = .next t ∧ KeptBut [.dt, .st] s t ∧
      t.dt.toNat = s.dt.toNat - 1 ∧ t.st.toNat = s.st.toNat - 1) ∧
    (∀ t, step s = .next t →
      (t.dt = s.dt ∨ ∃ x, s.runs (.ldDt x)) ∧ (t.st = s.st ∨ ∃ x, s.runs (.ldSt x)))

/-! ### Control transfer and stack -/

/-- 2NNN with room on the stack pushes the address after the call and jumps; 00EE with an entry on the stack pops the top
entry into `pc` and leaves the slot (41_flow_stack.md section 1; what is pushed and popped is the spec's decision D6, log
entry 21). -/
def Obligations.CallPushesAndReturnPops : Prop :=
  (∀ nnn : Addr, decode (formatA 0x2#4 nnn) = some (.call nnn)) ∧ decode 0x00EE#16 = some .ret ∧
  (∀ (nnn : Addr) (s : State), s.sp.val < 16 →
    ∃ t, exec (.call nnn) s = .next t ∧ t.pc.toNat = nnn.toNat ∧ t.sp.val = s.sp.val + 1 ∧
      ∀ k : Fin 16, t.stack[k] = if k.val = s.sp.val then s.pc + 2#16 else s.stack[k]) ∧
  (∀ s : State, 0 < s.sp.val →
    ∃ t, exec .ret s = .next t ∧ t.sp.val + 1 = s.sp.val ∧ t.stack = s.stack ∧
      ∀ k : Fin 16, k.val + 1 = s.sp.val → t.pc = s.stack[k])

/-- A return reached with the stack as the call left it goes to the address after the call and restores `sp`
(41_flow_stack.md section 3, where the spec marks it as derived). -/
def Obligations.ReturnUndoesCall : Prop :=
  ∀ (nnn : Addr) (s t u : State), exec (.call nnn) s = .next t → u.sp = t.sp → u.stack = t.stack →
    ∃ w, exec .ret u = .next w ∧ w.pc = s.pc + 2#16 ∧ w.sp = s.sp

/-- R151: 1NNN sets `pc` to NNN, whatever NNN is; no flag, no stack. -/
def Obligations.JumpSetsPc : Prop :=
  ∀ (nnn : Addr) (s : State), decode (formatA 0x1#4 nnn) = some (.jp nnn) ∧
    ∃ t, exec (.jp nnn) s = .next t ∧ t.pc.toNat = nnn.toNat ∧ t.reg 0xF#4 = s.reg 0xF#4 ∧
      t.stack = s.stack ∧ t.sp = s.sp

/-- BNNN sets `pc` to NNN + V0, not masked (41_flow_stack.md section 1; no mask is the spec's decision D3, log entry 8). -/
def Obligations.JumpV0AddsWithoutMask : Prop :=
  ∀ (nnn : Addr) (s : State), decode (formatA 0xB#4 nnn) = some (.jpV0 nnn) ∧
    ∃ t, exec (.jpV0 nnn) s = .next t ∧ t.pc.toNat = nnn.toNat + (s.reg 0x0#4).toNat ∧ t.reg 0xF#4 = s.reg 0xF#4

/-- R154, R155: the skips that compare with an immediate. -/
def Obligations.SkipsOnImmediate : Prop :=
  ∀ (x : Nibble) (nn : Byte) (s : State),
    decode (formatXI 0x3#4 x nn) = some (.seImm x nn) ∧ decode (formatXI 0x4#4 x nn) = some (.sneImm x nn) ∧
    (∃ t, exec (.seImm x nn) s = .next t ∧ t.reg 0xF#4 = s.reg 0xF#4 ∧
      t.pc = if s.reg x = nn then s.pc + 4#16 else s.pc + 2#16) ∧
    (∃ t, exec (.sneImm x nn) s = .next t ∧ t.reg 0xF#4 = s.reg 0xF#4 ∧
      t.pc = if s.reg x ≠ nn then s.pc + 4#16 else s.pc + 2#16)

/-- R156, R157: the skips that compare two registers; a non-zero low nibble is no such instruction. -/
def Obligations.SkipsOnRegisters : Prop :=
  ∀ (x y : Nibble) (s : State),
    decode (formatXYN 0x5#4 x y 0x0#4) = some (.seReg x y) ∧
    decode (formatXYN 0x9#4 x y 0x0#4) = some (.sneReg x y) ∧
    (∀ n, n ≠ 0x0#4 → decode (formatXYN 0x5#4 x y n) = none ∧ decode (formatXYN 0x9#4 x y n) = none) ∧
    (∃ t, exec (.seReg x y) s = .next t ∧ t.reg 0xF#4 = s.reg 0xF#4 ∧
      t.pc = if s.reg x = s.reg y then s.pc + 4#16 else s.pc + 2#16) ∧
    (∃ t, exec (.sneReg x y) s = .next t ∧ t.reg 0xF#4 = s.reg 0xF#4 ∧
      t.pc = if s.reg x ≠ s.reg y then s.pc + 4#16 else s.pc + 2#16)

/-- EX9E and EXA1 test the level of the key named by the low nibble of VX (45_keypad_timers.md section 1; the low nibble is
the spec's decision D13, log entry 12). -/
def Obligations.SkipsOnKeys : Prop :=
  ∀ (x : Nibble) (s : State),
    decode (formatXI 0xE#4 x 0x9E#8) = some (.skp x) ∧ decode (formatXI 0xE#4 x 0xA1#8) = some (.sknp x) ∧
    (∃ t, exec (.skp x) s = .next t ∧ t.keys = s.keys ∧
      t.pc = if s.keys.getLsbD ((s.reg x).toNat % 16) = true then s.pc + 4#16 else s.pc + 2#16) ∧
    (∃ t, exec (.sknp x) s = .next t ∧ t.keys = s.keys ∧
      t.pc = if s.keys.getLsbD ((s.reg x).toNat % 16) = false then s.pc + 4#16 else s.pc + 2#16)

/-! ### Load, arithmetic, logic, shifts, random -/

/-- R170, R171: VX := NN, and VX := VX + NN modulo 256 with no flag. -/
def Obligations.ImmediateForms : Prop :=
  ∀ (x : Nibble) (nn : Byte) (s : State),
    decode (formatXI 0x6#4 x nn) = some (.ldImm x nn) ∧ decode (formatXI 0x7#4 x nn) = some (.addImm x nn) ∧
    (∃ t, exec (.ldImm x nn) s = .next t ∧ t.reg x = nn ∧ t.pc = s.pc + 2#16 ∧
      (x ≠ 0xF#4 → t.reg 0xF#4 = s.reg 0xF#4)) ∧
    (∃ t, exec (.addImm x nn) s = .next t ∧ (t.reg x).toNat = ((s.reg x).toNat + nn.toNat) % 256 ∧
      t.pc = s.pc + 2#16 ∧ (x ≠ 0xF#4 → t.reg 0xF#4 = s.reg 0xF#4))

/-- R172: VX := VY; VY is not changed, there is no flag, and with X = Y nothing changes but `pc`. -/
def Obligations.CopyRegister : Prop :=
  ∀ (x y : Nibble) (s : State), decode (formatXYN 0x8#4 x y 0x0#4) = some (.ldReg x y) ∧
    ∃ t, exec (.ldReg x y) s = .next t ∧ t.reg x = s.reg y ∧ t.reg y = s.reg y ∧ t.pc = s.pc + 2#16 ∧
      (x ≠ 0xF#4 → t.reg 0xF#4 = s.reg 0xF#4) ∧ (x = y → KeptBut [.pc] s t)

/-- 8XY1, 8XY2, 8XY3: bitwise OR, AND, XOR, said bit by bit; VF is not touched unless it is the destination
(42_alu.md section 2; that VF is not touched is the spec's decision D1, log entry 6). -/
def Obligations.LogicForms : Prop :=
  ∀ (x y : Nibble) (s : State),
    decode (formatXYN 0x8#4 x y 0x1#4) = some (.orReg x y) ∧
    decode (formatXYN 0x8#4 x y 0x2#4) = some (.andReg x y) ∧
    decode (formatXYN 0x8#4 x y 0x3#4) = some (.xorReg x y) ∧
    (∃ t, exec (.orReg x y) s = .next t ∧ t.pc = s.pc + 2#16 ∧ (x ≠ 0xF#4 → t.reg 0xF#4 = s.reg 0xF#4) ∧
      ∀ b, (t.reg x).getLsbD b = ((s.reg x).getLsbD b || (s.reg y).getLsbD b)) ∧
    (∃ t, exec (.andReg x y) s = .next t ∧ t.pc = s.pc + 2#16 ∧ (x ≠ 0xF#4 → t.reg 0xF#4 = s.reg 0xF#4) ∧
      ∀ b, (t.reg x).getLsbD b = ((s.reg x).getLsbD b && (s.reg y).getLsbD b)) ∧
    (∃ t, exec (.xorReg x y) s = .next t ∧ t.pc = s.pc + 2#16 ∧ (x ≠ 0xF#4 → t.reg 0xF#4 = s.reg 0xF#4) ∧
      ∀ b, (t.reg x).getLsbD b = Bool.xor ((s.reg x).getLsbD b) ((s.reg y).getLsbD b))

/-- 8XY4: the sum modulo 256, and VF is 1 exactly when it exceeded 255; with X = 15 the flag stays (42_alu.md section 3; the
order of the two writes is the spec's decision D8, log entry 7). -/
def Obligations.AddSetsCarry : Prop :=
  ∀ (x y : Nibble) (s : State), decode (formatXYN 0x8#4 x y 0x4#4) = some (.addReg x y) ∧
    ∃ t, exec (.addReg x y) s = .next t ∧ t.pc = s.pc + 2#16 ∧
      (x ≠ 0xF#4 → (t.reg x).toNat = ((s.reg x).toNat + (s.reg y).toNat) % 256) ∧
      t.reg 0xF#4 = if 255 < (s.reg x).toNat + (s.reg y).toNat then 1#8 else 0#8

/-- 8XY5, 8XY7: VX - VY and VY - VX modulo 256 into VX, and VF is 1 exactly when no borrow was needed; with X = 15 the flag
stays; VY is not changed unless it is VX or VF (42_alu.md section 3; the order of the two writes is the spec's decision D8,
log entry 7). -/
def Obligations.SubtractsSetNoBorrow : Prop :=
  ∀ (x y : Nibble) (s : State),
    decode (formatXYN 0x8#4 x y 0x5#4) = some (.subReg x y) ∧
    decode (formatXYN 0x8#4 x y 0x7#4) = some (.subn x y) ∧
    (∃ t, exec (.subReg x y) s = .next t ∧ t.pc = s.pc + 2#16 ∧
      (x ≠ 0xF#4 → (t.reg x).toNat = ((s.reg x).toNat + 256 - (s.reg y).toNat) % 256) ∧
      (t.reg 0xF#4 = if (s.reg y).toNat ≤ (s.reg x).toNat then 1#8 else 0#8) ∧
      (y ≠ x → y ≠ 0xF#4 → t.reg y = s.reg y)) ∧
    (∃ t, exec (.subn x y) s = .next t ∧ t.pc = s.pc + 2#16 ∧
      (x ≠ 0xF#4 → (t.reg x).toNat = ((s.reg y).toNat + 256 - (s.reg x).toNat) % 256) ∧
      (t.reg 0xF#4 = if (s.reg x).toNat ≤ (s.reg y).toNat then 1#8 else 0#8) ∧
      (y ≠ x → y ≠ 0xF#4 → t.reg y = s.reg y))

/-- 8XY6 and 8XYE shift VX itself by one, whatever Y is, and VF is the bit shifted out, also with X = 15
(42_alu.md section 3; the order of the two writes is the spec's decision D8, log entry 7). -/
def Obligations.ShiftsKeepTheBitShiftedOut : Prop :=
  ∀ (x y : Nibble) (s : State),
    decode (formatXYN 0x8#4 x y 0x6#4) = some (.shr x y) ∧
    decode (formatXYN 0x8#4 x y 0xE#4) = some (.shl x y) ∧
    (∃ t, exec (.shr x y) s = .next t ∧ t.pc = s.pc + 2#16 ∧
      (x ≠ 0xF#4 → (t.reg x).toNat = (s.reg x).toNat / 2) ∧ (t.reg 0xF#4).toNat = (s.reg x).toNat % 2) ∧
    (∃ t, exec (.shl x y) s = .next t ∧ t.pc = s.pc + 2#16 ∧
      (x ≠ 0xF#4 → (t.reg x).toNat = (s.reg x).toNat * 2 % 256) ∧ (t.reg 0xF#4).toNat = (s.reg x).toNat / 128)

/-- CXNN: VX is a random byte AND NN, so it has no bit that NN lacks, and the next draw is another one. The random byte is
a free value: the statement holds for every one (42_alu.md section 5, the spec's decision D9, log entry 1). -/
def Obligations.RandomIsMasked : Prop :=
  ∀ (x : Nibble) (nn : Byte) (s : State), decode (formatXI 0xC#4 x nn) = some (.rnd x nn) ∧
    ∃ t, exec (.rnd x nn) s = .next t ∧ t.pc = s.pc + 2#16 ∧ t.draws = s.draws + 1 ∧
      t.reg x = Config.randByte s.draws &&& nn ∧ t.reg x &&& ~~~nn = 0#8 ∧
      (x ≠ 0xF#4 → t.reg 0xF#4 = s.reg 0xF#4)

/-! ### Index register and memory -/

/-- R200: I := NNN, for any NNN; no flag. -/
def Obligations.LoadIndex : Prop :=
  ∀ (nnn : Addr) (s : State), decode (formatA 0xA#4 nnn) = some (.ldI nnn) ∧
    ∃ t, exec (.ldI nnn) s = .next t ∧ t.i.toNat = nnn.toNat ∧ t.pc = s.pc + 2#16 ∧ t.reg 0xF#4 = s.reg 0xF#4

/-- FX1E adds VX to `I` modulo 4096 and sets no flag; FX29 sets `I` to 0x050 + 5·VX for the whole byte VX
(43_index_memory.md section 1; no flag is the spec's decision D1, log entry 6, and the whole byte D14, log entry 13). -/
def Obligations.IndexArithmetic : Prop :=
  ∀ (x : Nibble) (s : State),
    decode (formatXI 0xF#4 x 0x1E#8) = some (.addI x) ∧ decode (formatXI 0xF#4 x 0x29#8) = some (.ldFont x) ∧
    (∃ t, exec (.addI x) s = .next t ∧ t.i.toNat = (s.i.toNat + (s.reg x).toNat) % 4096 ∧
      t.pc = s.pc + 2#16 ∧ t.reg 0xF#4 = s.reg 0xF#4) ∧
    (∃ t, exec (.ldFont x) s = .next t ∧ t.i.toNat = 0x050 + 5 * (s.reg x).toNat ∧
      t.pc = s.pc + 2#16 ∧ t.reg 0xF#4 = s.reg 0xF#4)

/-- R203: the hundreds, tens and ones digits of VX, each as a byte, at the three masked addresses from `I`; `I` and VX are
not changed, and there is no flag. -/
def Obligations.BcdStoresThreeDigits : Prop :=
  ∀ (x : Nibble) (s : State), decode (formatXI 0xF#4 x 0x33#8) = some (.bcd x) ∧
    ∃ t, exec (.bcd x) s = .next t ∧ t.pc = s.pc + 2#16 ∧ t.i = s.i ∧ (∀ r, t.reg r = s.reg r) ∧
      (t.readByte (BitVec.ofNat 12 s.i.toNat)).toNat = (s.reg x).toNat / 100 ∧
      (t.readByte (BitVec.ofNat 12 (s.i.toNat + 1))).toNat = (s.reg x).toNat / 10 % 10 ∧
      (t.readByte (BitVec.ofNat 12 (s.i.toNat + 2))).toNat = (s.reg x).toNat % 10

/-- FX55 stores V0 to VX at the masked addresses from `I`, FX65 loads V0 to VX from them, and neither changes `I`
(43_index_memory.md sections 2 and 3; that `I` stays is the spec's decision D1, log entry 6). -/
def Obligations.BlockTransfers : Prop :=
  ∀ (x : Nibble) (s : State),
    decode (formatXI 0xF#4 x 0x55#8) = some (.store x) ∧ decode (formatXI 0xF#4 x 0x65#8) = some (.load x) ∧
    (∃ t, exec (.store x) s = .next t ∧ t.pc = s.pc + 2#16 ∧ t.i = s.i ∧
      ∀ r : Nibble, r.toNat ≤ x.toNat → t.readByte (BitVec.ofNat 12 (s.i.toNat + r.toNat)) = s.reg r) ∧
    (∃ t, exec (.load x) s = .next t ∧ t.pc = s.pc + 2#16 ∧ t.i = s.i ∧
      ∀ r : Nibble, t.reg r =
        if r.toNat ≤ x.toNat then s.readByte (BitVec.ofNat 12 (s.i.toNat + r.toNat)) else s.reg r)

/-- What FX55 stored, FX65 with the same `I` and X loads back, whatever the registers held in between
(the property the source states of FX55 and FX65, 43_index_memory.md section 3). -/
def Obligations.LoadRestoresWhatStoreSaved : Prop :=
  ∀ (x : Nibble) (s t u w : State), exec (.store x) s = .next t → u.i = t.i → u.mem = t.mem →
    exec (.load x) u = .next w → ∀ r : Nibble, r.toNat ≤ x.toNat → w.reg r = s.reg r

/-! ### Display -/

/-- R220: every pixel is off, whatever the display was; VF is not changed. -/
def Obligations.ClearTurnsEveryPixelOff : Prop :=
  ∀ s : State, decode 0x00E0#16 = some .cls ∧
    ∃ t, exec .cls s = .next t ∧ (∀ x y, t.display x y = false) ∧ t.pc = s.pc + 2#16 ∧ t.reg 0xF#4 = s.reg 0xF#4

/-- DXYN toggles exactly the pixels that a set bit of the sprite falls on, with every coordinate taken modulo the display's
size, and VF is 1 exactly when one of them was on, else 0; the coordinates are VX and VY before VF is written, also with
X or Y = 15 (44_display.md section 3; the row format is the spec's decision D10, log entry 11, the wrap D11 and N = 0 D30,
log entry 10). -/
def Obligations.DrawTogglesCoveredPixels : Prop :=
  ∀ (x y n : Nibble) (s : State), decode (formatXYN 0xD#4 x y n) = some (.drw x y n) ∧
    ∃ t, exec (.drw x y n) s = .next t ∧ t.pc = s.pc + 2#16 ∧
      (∀ px py, (Covers s (s.reg x) (s.reg y) n.toNat px py → t.display px py = !s.display px py) ∧
        (¬ Covers s (s.reg x) (s.reg y) n.toNat px py → t.display px py = s.display px py)) ∧
      ((∃ px py, Covers s (s.reg x) (s.reg y) n.toNat px py ∧ s.display px py = true) → t.reg 0xF#4 = 1#8) ∧
      ((¬ ∃ px py, Covers s (s.reg x) (s.reg y) n.toNat px py ∧ s.display px py = true) → t.reg 0xF#4 = 0#8)

/-- The same sprite drawn twice at the same place leaves the display as it was, and if the display was clear and the sprite
has a set bit the second draw sets VF to 1 (the property the source states of DXYN, 44_display.md section 3). -/
def Obligations.DrawTwiceErases : Prop :=
  ∀ (x y n : Nibble) (s t u w : State), exec (.drw x y n) s = .next t →
    u.disp = t.disp → u.i = s.i → u.mem = s.mem → u.reg x = s.reg x → u.reg y = s.reg y →
    exec (.drw x y n) u = .next w →
    (∀ px py, w.display px py = s.display px py) ∧
      ((∀ px py, s.display px py = false) →
        (∃ r c, r < n.toNat ∧ c < 8 ∧ (s.readByte (dataAddr s.i r)).getLsbD c = true) → w.reg 0xF#4 = 1#8)

/-! ### Timers and keypad -/

/-- R245: VX := DT; DT is not changed, and there is no flag. No instruction reads `ST`: whatever `ST` holds, FX18 does the
same, and every other instruction does the same and leaves `ST` as it was. -/
def Obligations.ReadDelayTimer : Prop :=
  ∀ (x : Nibble) (s : State), decode (formatXI 0xF#4 x 0x07#8) = some (.ldFromDt x) ∧
    (∃ t, exec (.ldFromDt x) s = .next t ∧ t.reg x = s.dt ∧ t.dt = s.dt ∧ t.pc = s.pc + 2#16 ∧
      (x ≠ 0xF#4 → t.reg 0xF#4 = s.reg 0xF#4)) ∧
    ∀ b : Byte, exec (.ldSt x) (s.setSt b) = exec (.ldSt x) s ∧
      ∀ i : Instr, (∀ y, i ≠ .ldSt y) → exec i (s.setSt b) = mapNext (fun t => t.setSt b) (exec i s)

/-- R246, R247: DT := VX, ST := VX; the sound is active at once exactly when VX is above 0; no flag. -/
def Obligations.SetTimers : Prop :=
  ∀ (x : Nibble) (s : State),
    decode (formatXI 0xF#4 x 0x15#8) = some (.ldDt x) ∧ decode (formatXI 0xF#4 x 0x18#8) = some (.ldSt x) ∧
    (∃ t, exec (.ldDt x) s = .next t ∧ t.dt = s.reg x ∧ t.pc = s.pc + 2#16 ∧ t.reg 0xF#4 = s.reg 0xF#4) ∧
    (∃ t, exec (.ldSt x) s = .next t ∧ t.st = s.reg x ∧ t.pc = s.pc + 2#16 ∧ t.reg 0xF#4 = s.reg 0xF#4 ∧
      (t.soundActive = true ↔ 0 < (s.reg x).toNat))

/-- FX0A enters WAIT_KEY mode with X and a snapshot of the keypad, and holds `pc`, whether or not a key is down
(45_keypad_timers.md section 2; the protocol is the spec's decision D15, log entry 9). -/
def Obligations.WaitForKeyEntersTheMode : Prop :=
  ∀ (x : Nibble) (s : State), decode (formatXI 0xF#4 x 0x0A#8) = some (.ldKey x) ∧
    ∃ t, exec (.ldKey x) s = .next t ∧ t.waiting = true ∧ t.waitX = x ∧ t.prevKeys = s.keys ∧ t.pc = s.pc ∧
      ∀ r, t.reg r = s.reg r

/-! ### Frames: what an instruction leaves unchanged (the spec's decision D1, log entry 6) -/

/-- Frame of the instructions that write general registers only: 6XNN, 7XNN, 8XY0 to 8XY7, 8XYE, CXNN, FX07, FX65. No byte of
memory changes, nor any register but the destinations, VF where it is a flag, and `pc`; CXNN also uses up a draw. -/
def Obligations.FrameOfRegisterInstructions : Prop :=
  ∀ (x y : Nibble) (nn : Byte) (s t : State),
    (∀ i ∈ [Instr.ldImm x nn, .addImm x nn, .ldReg x y, .orReg x y, .andReg x y, .xorReg x y, .ldFromDt x],
      exec i s = .next t → KeptBut [.pc, .v] s t ∧ ∀ r, r ≠ x → t.reg r = s.reg r) ∧
    (∀ i ∈ [Instr.addReg x y, .subReg x y, .shr x y, .subn x y, .shl x y],
      exec i s = .next t → KeptBut [.pc, .v] s t ∧ ∀ r, r ≠ x → r ≠ 0xF#4 → t.reg r = s.reg r) ∧
    (exec (.rnd x nn) s = .next t → KeptBut [.pc, .v, .draws] s t ∧ ∀ r, r ≠ x → t.reg r = s.reg r) ∧
    (exec (.load x) s = .next t →
      KeptBut [.pc, .v] s t ∧ ∀ r : Nibble, x.toNat < r.toNat → t.reg r = s.reg r)

/-- Frame of the jumps and skips: 1NNN, BNNN, 3XNN, 4XNN, 5XY0, 9XY0, EX9E, EXA1 change `pc` and nothing else. -/
def Obligations.FrameOfJumpsAndSkips : Prop :=
  ∀ (x y : Nibble) (nn : Byte) (nnn : Addr) (s t : State),
    ∀ i ∈ [Instr.jp nnn, .jpV0 nnn, .seImm x nn, .sneImm x nn, .seReg x y, .sneReg x y, .skp x, .sknp x],
      exec i s = .next t → KeptBut [.pc] s t

/-- Frame of 2NNN and 00EE: nothing but `pc`, `sp` and, for the call, the one stack slot at `sp`. -/
def Obligations.FrameOfCallAndReturn : Prop :=
  ∀ (nnn : Addr) (s t : State),
    (exec (.call nnn) s = .next t → KeptBut [.pc, .sp, .stack] s t ∧
      ∀ k : Fin 16, k.val ≠ s.sp.val → t.stack[k] = s.stack[k]) ∧
    (exec .ret s = .next t → KeptBut [.pc, .sp] s t)

/-- Frame of the instructions that write the index register, a timer or the wait latches: ANNN, FX1E, FX29, FX15, FX18,
FX0A. -/
def Obligations.FrameOfSpecialRegisterWrites : Prop :=
  ∀ (x : Nibble) (nnn : Addr) (s t : State),
    (∀ i ∈ [Instr.ldI nnn, .addI x, .ldFont x], exec i s = .next t → KeptBut [.pc, .i] s t) ∧
    (exec (.ldDt x) s = .next t → KeptBut [.pc, .dt] s t) ∧
    (exec (.ldSt x) s = .next t → KeptBut [.pc, .st] s t) ∧
    (exec (.ldKey x) s = .next t → KeptBut [.waiting, .waitX, .prevKeys] s t)

/-- Frame of the stores: FX33 and FX55 change no register but `pc`, and no byte of memory outside the 3, or the X + 1,
addresses that they store to. -/
def Obligations.FrameOfStores : Prop :=
  ∀ (x : Nibble) (s t : State),
    (exec (.bcd x) s = .next t → KeptBut [.pc, .mem] s t ∧
      ∀ a : Addr, (∀ k < 3, a ≠ dataAddr s.i k) → t.readByte a = s.readByte a) ∧
    (exec (.store x) s = .next t → KeptBut [.pc, .mem] s t ∧
      ∀ a : Addr, (∀ k ≤ x.toNat, a ≠ dataAddr s.i k) → t.readByte a = s.readByte a)

/-- Frame of the display instructions: 00E0 changes the display and `pc`; DXYN also VF, and no other register. -/
def Obligations.FrameOfDisplayInstructions : Prop :=
  ∀ (x y n : Nibble) (s t : State),
    (exec .cls s = .next t → KeptBut [.pc, .disp] s t) ∧
    (exec (.drw x y n) s = .next t →
      KeptBut [.pc, .disp, .v] s t ∧ ∀ r, r ≠ 0xF#4 → t.reg r = s.reg r)

/-! ### Rules over all instructions -/

/-- Every opcode that does not branch advances `pc` by exactly 2, and every skip by exactly 4 when its condition holds (and by
2 when it does not). The branching opcodes are 1NNN, 2NNN, BNNN, 00EE, the six skips and FX0A (40_step_cycle.md section 4;
which key EX9E and EXA1 test is the spec's decision D13, log entry 12). -/
def Obligations.PcAdvancesByTwoOrFour : Prop :=
  ∀ (i : Instr) (s t : State), exec i s = .next t →
    (setsPc i = false → skipTaken i s = none → t.pc = s.pc + 2#16) ∧
    (skipTaken i s = some true → t.pc = s.pc + 4#16) ∧
    (skipTaken i s = some false → t.pc = s.pc + 2#16)

/-- VF as a flag is always 0 or 1; an instruction that writes no flag and does not name VF as its destination leaves VF
(10_state.md section 3, the spec's decision D1, log entry 6). -/
def Obligations.FlagIsZeroOrOneAndElseKept : Prop :=
  ∀ (i : Instr) (s t : State), exec i s = .next t →
    (writesFlag i = true → t.reg 0xF#4 = 0#8 ∨ t.reg 0xF#4 = 1#8) ∧
    (writesFlag i = false → namesDest i 0xF#4 = false → t.reg 0xF#4 = s.reg 0xF#4)

/-- Which steps write each piece of state, `pc` apart: the keypad none; memory only FX33 and FX55, the display only 00E0 and
DXYN, the stack only 2NNN, `sp` only 2NNN and 00EE, `I` only ANNN, FX1E and FX29, `DT` only FX15, `ST` only FX18, `wait_x` only
FX0A, the mode and `prev_keys` only FX0A and a WAIT_KEY step; a general register only an instruction that names it as a
destination, for VF also one that writes the flag, and for V[`wait_x`] also a WAIT_KEY step; the model's own count of draws
only CXNN (10_state.md sections 2 to 9; 20_memory.md section 6; 44_display.md section 4; the spec's decisions D1 and D15, log
entries 6 and 9). -/
def Obligations.StateIsWrittenOnlyByItsInstructions : Prop :=
  ∀ s t : State, step s = .next t →
    t.keys = s.keys ∧
    (t.mem = s.mem ∨ ∃ x, s.runs (.bcd x) ∨ s.runs (.store x)) ∧
    (t.disp = s.disp ∨ s.runs .cls ∨ ∃ x y n, s.runs (.drw x y n)) ∧
    (t.stack = s.stack ∨ ∃ nnn, s.runs (.call nnn)) ∧
    (t.sp = s.sp ∨ s.runs .ret ∨ ∃ nnn, s.runs (.call nnn)) ∧
    (t.i = s.i ∨ (∃ nnn, s.runs (.ldI nnn)) ∨ ∃ x, s.runs (.addI x) ∨ s.runs (.ldFont x)) ∧
    (t.dt = s.dt ∨ ∃ x, s.runs (.ldDt x)) ∧
    (t.st = s.st ∨ ∃ x, s.runs (.ldSt x)) ∧
    (t.waitX = s.waitX ∨ ∃ x, s.runs (.ldKey x)) ∧
    (t.waiting = s.waiting ∨ s.waiting = true ∨ ∃ x, s.runs (.ldKey x)) ∧
    (t.prevKeys = s.prevKeys ∨ s.waiting = true ∨ ∃ x, s.runs (.ldKey x)) ∧
    (∀ r, t.reg r = s.reg r ∨ (s.waiting = true ∧ r = s.waitX) ∨
      ∃ i, s.runs i ∧ (namesDest i r = true ∨ (r = 0xF#4 ∧ writesFlag i = true))) ∧
    (t.draws = s.draws ∨ ∃ x nn, s.runs (.rnd x nn))

/-- The random byte is used by CXNN alone: every other instruction, and every WAIT_KEY step, does the same whichever draw
comes next (40_step_cycle.md section 4; that the byte is a free value is the spec's decision D9, log entry 1). -/
def Obligations.OnlyRandomInstructionUsesTheDraw : Prop :=
  ∀ (s : State) (n : Nat),
    (∀ i : Instr, (∀ x nn, i ≠ .rnd x nn) →
      exec i { s with draws := n } = mapNext (fun t => { t with draws := n }) (exec i s)) ∧
    waitKeyStep { s with draws := n } = mapNext (fun t => { t with draws := n }) (waitKeyStep s)

/-- The readings of the open parameters that are not the spec's own values: `JUMP_V0_MASK`, `FONT_DIGIT_MODE` = low_nibble,
`KEY_INDEX_MODE` = not_pressed, `DRAW_MODE` = clip_at_edge, and the free `WAIT_KEY_PICK`, which takes some newly pressed
key whenever there is one (00_scope.md section 4; log entries 8, 9, 10, 12, 13). -/
def Obligations.OtherReadingsOfOpenParameters : Prop :=
  (∀ (nnn : Addr) (v : Byte), (jumpV0Target true nnn v).toNat = (nnn.toNat + v.toNat) % 4096) ∧
  (∀ v : Byte, (fontAddr .lowNibble v).toNat = 0x050 + 5 * (v.toNat % 16)) ∧
  (∀ (keys : Word) (v : Byte), keyPressed .notPressed keys v = true ↔ v.toNat < 16 ∧ keys.getLsbD v.toNat = true) ∧
  (∀ (vx vy : Byte) (r c : Nat) (px : Fin 64) (py : Fin 32),
    spritePixel .clipAtEdge vx vy r c = some (px, py) ↔
      px.val = vx.toNat % 64 + c ∧ py.val = vy.toNat % 32 + r) ∧
  (∀ (d : Nat) (new : Word), (pickKey .anyPressed d new = none ↔ new = 0#16) ∧
    ∀ k, pickKey .anyPressed d new = some k → new.getLsbD k.toNat = true)
end

