-- ==== Sys2Proof/Laws/Decode.lean ====
section
/-! SUPPORT. Fields of the formats, and the bytes of an opcode (R62, R91, R92). -/

namespace Sys2Proof

@[simp] theorem fieldFamily_formatA (f : Nibble) (nnn : Addr) : fieldFamily (formatA f nnn) = f := by
  ext i hi
  simp only [fieldFamily, formatA, BitVec.getElem_extractLsb', BitVec.getLsbD_or, BitVec.getLsbD_shiftLeft,
    BitVec.getLsbD_setWidth]
  interval_cases i <;> simp [← BitVec.getLsbD_eq_getElem]

@[simp] theorem fieldNNN_formatA (f : Nibble) (nnn : Addr) : fieldNNN (formatA f nnn) = nnn := by
  ext i hi
  simp only [fieldNNN, formatA, BitVec.getElem_extractLsb', BitVec.getLsbD_or, BitVec.getLsbD_shiftLeft,
    BitVec.getLsbD_setWidth]
  interval_cases i <;> simp [← BitVec.getLsbD_eq_getElem]

@[simp] theorem fieldFamily_formatXI (f x : Nibble) (nn : Byte) : fieldFamily (formatXI f x nn) = f := by
  ext i hi
  simp only [fieldFamily, formatXI, BitVec.getElem_extractLsb', BitVec.getLsbD_or, BitVec.getLsbD_shiftLeft,
    BitVec.getLsbD_setWidth]
  interval_cases i <;> simp [← BitVec.getLsbD_eq_getElem]

@[simp] theorem fieldX_formatXI (f x : Nibble) (nn : Byte) : fieldX (formatXI f x nn) = x := by
  ext i hi
  simp only [fieldX, formatXI, BitVec.getElem_extractLsb', BitVec.getLsbD_or, BitVec.getLsbD_shiftLeft,
    BitVec.getLsbD_setWidth]
  interval_cases i <;> simp [← BitVec.getLsbD_eq_getElem]

@[simp] theorem fieldNN_formatXI (f x : Nibble) (nn : Byte) : fieldNN (formatXI f x nn) = nn := by
  ext i hi
  simp only [fieldNN, formatXI, BitVec.getElem_extractLsb', BitVec.getLsbD_or, BitVec.getLsbD_shiftLeft,
    BitVec.getLsbD_setWidth]
  interval_cases i <;> simp [← BitVec.getLsbD_eq_getElem]

@[simp] theorem fieldFamily_formatXYN (f x y n : Nibble) : fieldFamily (formatXYN f x y n) = f := by
  ext i hi
  simp only [fieldFamily, formatXYN, BitVec.getElem_extractLsb', BitVec.getLsbD_or, BitVec.getLsbD_shiftLeft,
    BitVec.getLsbD_setWidth]
  interval_cases i <;> simp [← BitVec.getLsbD_eq_getElem]

@[simp] theorem fieldX_formatXYN (f x y n : Nibble) : fieldX (formatXYN f x y n) = x := by
  ext i hi
  simp only [fieldX, formatXYN, BitVec.getElem_extractLsb', BitVec.getLsbD_or, BitVec.getLsbD_shiftLeft,
    BitVec.getLsbD_setWidth]
  interval_cases i <;> simp [← BitVec.getLsbD_eq_getElem]

@[simp] theorem fieldY_formatXYN (f x y n : Nibble) : fieldY (formatXYN f x y n) = y := by
  ext i hi
  simp only [fieldY, formatXYN, BitVec.getElem_extractLsb', BitVec.getLsbD_or, BitVec.getLsbD_shiftLeft,
    BitVec.getLsbD_setWidth]
  interval_cases i <;> simp [← BitVec.getLsbD_eq_getElem]

@[simp] theorem fieldN_formatXYN (f x y n : Nibble) : fieldN (formatXYN f x y n) = n := by
  ext i hi
  simp only [fieldN, formatXYN, BitVec.getElem_extractLsb', BitVec.getLsbD_or, BitVec.getLsbD_shiftLeft,
    BitVec.getLsbD_setWidth]
  interval_cases i <;> simp [← BitVec.getLsbD_eq_getElem]

/-- An opcode is made of its fields. -/
theorem formatA_fields (op : Word) : formatA (fieldFamily op) (fieldNNN op) = op := by
  ext i hi
  simp only [fieldFamily, fieldNNN, formatA, BitVec.getElem_or, BitVec.getElem_shiftLeft, BitVec.getElem_setWidth,
    BitVec.getLsbD_extractLsb']
  interval_cases i <;> simp [BitVec.getLsbD_eq_getElem]

/-- An opcode is made of its fields. -/
theorem formatXI_fields (op : Word) : formatXI (fieldFamily op) (fieldX op) (fieldNN op) = op := by
  ext i hi
  simp only [fieldFamily, fieldX, fieldNN, formatXI, BitVec.getElem_or, BitVec.getElem_shiftLeft, BitVec.getElem_setWidth,
    BitVec.getLsbD_extractLsb']
  interval_cases i <;> simp [BitVec.getLsbD_eq_getElem]

/-- An opcode is made of its fields. -/
theorem formatXYN_fields (op : Word) : formatXYN (fieldFamily op) (fieldX op) (fieldY op) (fieldN op) = op := by
  ext i hi
  simp only [fieldFamily, fieldX, fieldY, fieldN, formatXYN, BitVec.getElem_or, BitVec.getElem_shiftLeft, BitVec.getElem_setWidth,
    BitVec.getLsbD_extractLsb']
  interval_cases i <;> simp [BitVec.getLsbD_eq_getElem]

@[simp] theorem opcodeOf_bytes (op : Word) : opcodeOf (highByte op) (lowByte op) = op := by
  ext i hi
  simp only [opcodeOf, highByte, lowByte, BitVec.getElem_or, BitVec.getElem_shiftLeft, BitVec.getElem_setWidth,
    BitVec.getLsbD_extractLsb']
  interval_cases i <;> simp [BitVec.getLsbD_eq_getElem]

@[simp] theorem highByte_opcodeOf (hi lo : Byte) : highByte (opcodeOf hi lo) = hi := by
  ext i h
  simp only [highByte, opcodeOf, BitVec.getElem_extractLsb', BitVec.getLsbD_or, BitVec.getLsbD_shiftLeft,
    BitVec.getLsbD_setWidth]
  interval_cases i <;> simp [← BitVec.getLsbD_eq_getElem]

@[simp] theorem lowByte_opcodeOf (hi lo : Byte) : lowByte (opcodeOf hi lo) = lo := by
  ext i h
  simp only [lowByte, opcodeOf, BitVec.getElem_extractLsb', BitVec.getLsbD_or, BitVec.getLsbD_shiftLeft,
    BitVec.getLsbD_setWidth]
  interval_cases i <;> simp [← BitVec.getLsbD_eq_getElem]

/-- A word of 16 bits given to the decoder through its bytes is decoded as it is. -/
theorem decodeTableWord_eq (w : Nat) (h : w < 2 ^ 16) : decodeTableWord 16 w = decode (BitVec.ofNat 16 w) := by
  rw [decodeTableWord, Nat.mod_eq_of_lt h]
  simp only [decodeBytes, opcodeOf_bytes]
  cases decode (BitVec.ofNat 16 w) <;> rfl

end Sys2Proof
end

