-- ==== Sys2Proof/Laws/State.lean ====
section
/-! SUPPORT. The small lemmas of the state's updates: what each leaves in each field, and what a register, a byte of memory
and the fetch read after it. -/

namespace Sys2Proof.Machine

/-! ### `setReg` -/

@[simp] theorem State.setReg_v (s : State) (x : Nibble) (w : Byte) : (s.setReg x w).v = s.v.set x.toNat w := rfl
@[simp] theorem State.setReg_i (s : State) (x : Nibble) (w : Byte) : (s.setReg x w).i = s.i := rfl
@[simp] theorem State.setReg_pc (s : State) (x : Nibble) (w : Byte) : (s.setReg x w).pc = s.pc := rfl
@[simp] theorem State.setReg_stack (s : State) (x : Nibble) (w : Byte) : (s.setReg x w).stack = s.stack := rfl
@[simp] theorem State.setReg_sp (s : State) (x : Nibble) (w : Byte) : (s.setReg x w).sp = s.sp := rfl
@[simp] theorem State.setReg_mem (s : State) (x : Nibble) (w : Byte) : (s.setReg x w).mem = s.mem := rfl
@[simp] theorem State.setReg_disp (s : State) (x : Nibble) (w : Byte) : (s.setReg x w).disp = s.disp := rfl
@[simp] theorem State.setReg_keys (s : State) (x : Nibble) (w : Byte) : (s.setReg x w).keys = s.keys := rfl
@[simp] theorem State.setReg_dt (s : State) (x : Nibble) (w : Byte) : (s.setReg x w).dt = s.dt := rfl
@[simp] theorem State.setReg_st (s : State) (x : Nibble) (w : Byte) : (s.setReg x w).st = s.st := rfl
@[simp] theorem State.setReg_waiting (s : State) (x : Nibble) (w : Byte) : (s.setReg x w).waiting = s.waiting := rfl
@[simp] theorem State.setReg_waitX (s : State) (x : Nibble) (w : Byte) : (s.setReg x w).waitX = s.waitX := rfl
@[simp] theorem State.setReg_prevKeys (s : State) (x : Nibble) (w : Byte) : (s.setReg x w).prevKeys = s.prevKeys := rfl
@[simp] theorem State.setReg_draws (s : State) (x : Nibble) (w : Byte) : (s.setReg x w).draws = s.draws := rfl
@[simp] theorem State.setReg_readByte (s : State) (x : Nibble) (w : Byte) (c : Addr) : (s.setReg x w).readByte c = s.readByte c := rfl

/-! ### `setI` -/

@[simp] theorem State.setI_v (s : State) (w : Word) : (s.setI w).v = s.v := rfl
@[simp] theorem State.setI_i (s : State) (w : Word) : (s.setI w).i = w := rfl
@[simp] theorem State.setI_pc (s : State) (w : Word) : (s.setI w).pc = s.pc := rfl
@[simp] theorem State.setI_stack (s : State) (w : Word) : (s.setI w).stack = s.stack := rfl
@[simp] theorem State.setI_sp (s : State) (w : Word) : (s.setI w).sp = s.sp := rfl
@[simp] theorem State.setI_mem (s : State) (w : Word) : (s.setI w).mem = s.mem := rfl
@[simp] theorem State.setI_disp (s : State) (w : Word) : (s.setI w).disp = s.disp := rfl
@[simp] theorem State.setI_keys (s : State) (w : Word) : (s.setI w).keys = s.keys := rfl
@[simp] theorem State.setI_dt (s : State) (w : Word) : (s.setI w).dt = s.dt := rfl
@[simp] theorem State.setI_st (s : State) (w : Word) : (s.setI w).st = s.st := rfl
@[simp] theorem State.setI_waiting (s : State) (w : Word) : (s.setI w).waiting = s.waiting := rfl
@[simp] theorem State.setI_waitX (s : State) (w : Word) : (s.setI w).waitX = s.waitX := rfl
@[simp] theorem State.setI_prevKeys (s : State) (w : Word) : (s.setI w).prevKeys = s.prevKeys := rfl
@[simp] theorem State.setI_draws (s : State) (w : Word) : (s.setI w).draws = s.draws := rfl
@[simp] theorem State.setI_reg (s : State) (w : Word) (r : Nibble) : (s.setI w).reg r = s.reg r := rfl
@[simp] theorem State.setI_readByte (s : State) (w : Word) (c : Addr) : (s.setI w).readByte c = s.readByte c := rfl

/-! ### `setDt` -/

@[simp] theorem State.setDt_v (s : State) (w : Byte) : (s.setDt w).v = s.v := rfl
@[simp] theorem State.setDt_i (s : State) (w : Byte) : (s.setDt w).i = s.i := rfl
@[simp] theorem State.setDt_pc (s : State) (w : Byte) : (s.setDt w).pc = s.pc := rfl
@[simp] theorem State.setDt_stack (s : State) (w : Byte) : (s.setDt w).stack = s.stack := rfl
@[simp] theorem State.setDt_sp (s : State) (w : Byte) : (s.setDt w).sp = s.sp := rfl
@[simp] theorem State.setDt_mem (s : State) (w : Byte) : (s.setDt w).mem = s.mem := rfl
@[simp] theorem State.setDt_disp (s : State) (w : Byte) : (s.setDt w).disp = s.disp := rfl
@[simp] theorem State.setDt_keys (s : State) (w : Byte) : (s.setDt w).keys = s.keys := rfl
@[simp] theorem State.setDt_dt (s : State) (w : Byte) : (s.setDt w).dt = w := rfl
@[simp] theorem State.setDt_st (s : State) (w : Byte) : (s.setDt w).st = s.st := rfl
@[simp] theorem State.setDt_waiting (s : State) (w : Byte) : (s.setDt w).waiting = s.waiting := rfl
@[simp] theorem State.setDt_waitX (s : State) (w : Byte) : (s.setDt w).waitX = s.waitX := rfl
@[simp] theorem State.setDt_prevKeys (s : State) (w : Byte) : (s.setDt w).prevKeys = s.prevKeys := rfl
@[simp] theorem State.setDt_draws (s : State) (w : Byte) : (s.setDt w).draws = s.draws := rfl
@[simp] theorem State.setDt_reg (s : State) (w : Byte) (r : Nibble) : (s.setDt w).reg r = s.reg r := rfl
@[simp] theorem State.setDt_readByte (s : State) (w : Byte) (c : Addr) : (s.setDt w).readByte c = s.readByte c := rfl

/-! ### `setSt` -/

@[simp] theorem State.setSt_v (s : State) (w : Byte) : (s.setSt w).v = s.v := rfl
@[simp] theorem State.setSt_i (s : State) (w : Byte) : (s.setSt w).i = s.i := rfl
@[simp] theorem State.setSt_pc (s : State) (w : Byte) : (s.setSt w).pc = s.pc := rfl
@[simp] theorem State.setSt_stack (s : State) (w : Byte) : (s.setSt w).stack = s.stack := rfl
@[simp] theorem State.setSt_sp (s : State) (w : Byte) : (s.setSt w).sp = s.sp := rfl
@[simp] theorem State.setSt_mem (s : State) (w : Byte) : (s.setSt w).mem = s.mem := rfl
@[simp] theorem State.setSt_disp (s : State) (w : Byte) : (s.setSt w).disp = s.disp := rfl
@[simp] theorem State.setSt_keys (s : State) (w : Byte) : (s.setSt w).keys = s.keys := rfl
@[simp] theorem State.setSt_dt (s : State) (w : Byte) : (s.setSt w).dt = s.dt := rfl
@[simp] theorem State.setSt_st (s : State) (w : Byte) : (s.setSt w).st = w := rfl
@[simp] theorem State.setSt_waiting (s : State) (w : Byte) : (s.setSt w).waiting = s.waiting := rfl
@[simp] theorem State.setSt_waitX (s : State) (w : Byte) : (s.setSt w).waitX = s.waitX := rfl
@[simp] theorem State.setSt_prevKeys (s : State) (w : Byte) : (s.setSt w).prevKeys = s.prevKeys := rfl
@[simp] theorem State.setSt_draws (s : State) (w : Byte) : (s.setSt w).draws = s.draws := rfl
@[simp] theorem State.setSt_reg (s : State) (w : Byte) (r : Nibble) : (s.setSt w).reg r = s.reg r := rfl
@[simp] theorem State.setSt_readByte (s : State) (w : Byte) (c : Addr) : (s.setSt w).readByte c = s.readByte c := rfl

/-! ### `setDisp` -/

@[simp] theorem State.setDisp_v (s : State) (d : Display) : (s.setDisp d).v = s.v := rfl
@[simp] theorem State.setDisp_i (s : State) (d : Display) : (s.setDisp d).i = s.i := rfl
@[simp] theorem State.setDisp_pc (s : State) (d : Display) : (s.setDisp d).pc = s.pc := rfl
@[simp] theorem State.setDisp_stack (s : State) (d : Display) : (s.setDisp d).stack = s.stack := rfl
@[simp] theorem State.setDisp_sp (s : State) (d : Display) : (s.setDisp d).sp = s.sp := rfl
@[simp] theorem State.setDisp_mem (s : State) (d : Display) : (s.setDisp d).mem = s.mem := rfl
@[simp] theorem State.setDisp_disp (s : State) (d : Display) : (s.setDisp d).disp = d := rfl
@[simp] theorem State.setDisp_keys (s : State) (d : Display) : (s.setDisp d).keys = s.keys := rfl
@[simp] theorem State.setDisp_dt (s : State) (d : Display) : (s.setDisp d).dt = s.dt := rfl
@[simp] theorem State.setDisp_st (s : State) (d : Display) : (s.setDisp d).st = s.st := rfl
@[simp] theorem State.setDisp_waiting (s : State) (d : Display) : (s.setDisp d).waiting = s.waiting := rfl
@[simp] theorem State.setDisp_waitX (s : State) (d : Display) : (s.setDisp d).waitX = s.waitX := rfl
@[simp] theorem State.setDisp_prevKeys (s : State) (d : Display) : (s.setDisp d).prevKeys = s.prevKeys := rfl
@[simp] theorem State.setDisp_draws (s : State) (d : Display) : (s.setDisp d).draws = s.draws := rfl
@[simp] theorem State.setDisp_reg (s : State) (d : Display) (r : Nibble) : (s.setDisp d).reg r = s.reg r := rfl
@[simp] theorem State.setDisp_readByte (s : State) (d : Display) (c : Addr) : (s.setDisp d).readByte c = s.readByte c := rfl

/-! ### `setPc` -/

@[simp] theorem State.setPc_v (s : State) (w : Word) : (s.setPc w).v = s.v := rfl
@[simp] theorem State.setPc_i (s : State) (w : Word) : (s.setPc w).i = s.i := rfl
@[simp] theorem State.setPc_pc (s : State) (w : Word) : (s.setPc w).pc = w := rfl
@[simp] theorem State.setPc_stack (s : State) (w : Word) : (s.setPc w).stack = s.stack := rfl
@[simp] theorem State.setPc_sp (s : State) (w : Word) : (s.setPc w).sp = s.sp := rfl
@[simp] theorem State.setPc_mem (s : State) (w : Word) : (s.setPc w).mem = s.mem := rfl
@[simp] theorem State.setPc_disp (s : State) (w : Word) : (s.setPc w).disp = s.disp := rfl
@[simp] theorem State.setPc_keys (s : State) (w : Word) : (s.setPc w).keys = s.keys := rfl
@[simp] theorem State.setPc_dt (s : State) (w : Word) : (s.setPc w).dt = s.dt := rfl
@[simp] theorem State.setPc_st (s : State) (w : Word) : (s.setPc w).st = s.st := rfl
@[simp] theorem State.setPc_waiting (s : State) (w : Word) : (s.setPc w).waiting = s.waiting := rfl
@[simp] theorem State.setPc_waitX (s : State) (w : Word) : (s.setPc w).waitX = s.waitX := rfl
@[simp] theorem State.setPc_prevKeys (s : State) (w : Word) : (s.setPc w).prevKeys = s.prevKeys := rfl
@[simp] theorem State.setPc_draws (s : State) (w : Word) : (s.setPc w).draws = s.draws := rfl
@[simp] theorem State.setPc_reg (s : State) (w : Word) (r : Nibble) : (s.setPc w).reg r = s.reg r := rfl
@[simp] theorem State.setPc_readByte (s : State) (w : Word) (c : Addr) : (s.setPc w).readByte c = s.readByte c := rfl

/-! ### `writeByte` -/

@[simp] theorem State.writeByte_v (s : State) (a : Addr) (w : Byte) : (s.writeByte a w).v = s.v := rfl
@[simp] theorem State.writeByte_i (s : State) (a : Addr) (w : Byte) : (s.writeByte a w).i = s.i := rfl
@[simp] theorem State.writeByte_pc (s : State) (a : Addr) (w : Byte) : (s.writeByte a w).pc = s.pc := rfl
@[simp] theorem State.writeByte_stack (s : State) (a : Addr) (w : Byte) : (s.writeByte a w).stack = s.stack := rfl
@[simp] theorem State.writeByte_sp (s : State) (a : Addr) (w : Byte) : (s.writeByte a w).sp = s.sp := rfl
@[simp] theorem State.writeByte_mem (s : State) (a : Addr) (w : Byte) : (s.writeByte a w).mem = s.mem.write a.toNat w := rfl
@[simp] theorem State.writeByte_disp (s : State) (a : Addr) (w : Byte) : (s.writeByte a w).disp = s.disp := rfl
@[simp] theorem State.writeByte_keys (s : State) (a : Addr) (w : Byte) : (s.writeByte a w).keys = s.keys := rfl
@[simp] theorem State.writeByte_dt (s : State) (a : Addr) (w : Byte) : (s.writeByte a w).dt = s.dt := rfl
@[simp] theorem State.writeByte_st (s : State) (a : Addr) (w : Byte) : (s.writeByte a w).st = s.st := rfl
@[simp] theorem State.writeByte_waiting (s : State) (a : Addr) (w : Byte) : (s.writeByte a w).waiting = s.waiting := rfl
@[simp] theorem State.writeByte_waitX (s : State) (a : Addr) (w : Byte) : (s.writeByte a w).waitX = s.waitX := rfl
@[simp] theorem State.writeByte_prevKeys (s : State) (a : Addr) (w : Byte) : (s.writeByte a w).prevKeys = s.prevKeys := rfl
@[simp] theorem State.writeByte_draws (s : State) (a : Addr) (w : Byte) : (s.writeByte a w).draws = s.draws := rfl
@[simp] theorem State.writeByte_reg (s : State) (a : Addr) (w : Byte) (r : Nibble) : (s.writeByte a w).reg r = s.reg r := rfl

/-! ### `advance` -/

@[simp] theorem State.advance_v (s : State) : (s.advance).v = s.v := rfl
@[simp] theorem State.advance_i (s : State) : (s.advance).i = s.i := rfl
@[simp] theorem State.advance_pc (s : State) : (s.advance).pc = s.pc + 2#16 := rfl
@[simp] theorem State.advance_stack (s : State) : (s.advance).stack = s.stack := rfl
@[simp] theorem State.advance_sp (s : State) : (s.advance).sp = s.sp := rfl
@[simp] theorem State.advance_mem (s : State) : (s.advance).mem = s.mem := rfl
@[simp] theorem State.advance_disp (s : State) : (s.advance).disp = s.disp := rfl
@[simp] theorem State.advance_keys (s : State) : (s.advance).keys = s.keys := rfl
@[simp] theorem State.advance_dt (s : State) : (s.advance).dt = s.dt := rfl
@[simp] theorem State.advance_st (s : State) : (s.advance).st = s.st := rfl
@[simp] theorem State.advance_waiting (s : State) : (s.advance).waiting = s.waiting := rfl
@[simp] theorem State.advance_waitX (s : State) : (s.advance).waitX = s.waitX := rfl
@[simp] theorem State.advance_prevKeys (s : State) : (s.advance).prevKeys = s.prevKeys := rfl
@[simp] theorem State.advance_draws (s : State) : (s.advance).draws = s.draws := rfl
@[simp] theorem State.advance_reg (s : State) (r : Nibble) : (s.advance).reg r = s.reg r := rfl
@[simp] theorem State.advance_readByte (s : State) (a : Addr) : (s.advance).readByte a = s.readByte a := rfl

/-! ### `skipIf` -/

@[simp] theorem State.skipIf_v (s : State) (c : Bool) : (s.skipIf c).v = s.v := rfl
@[simp] theorem State.skipIf_i (s : State) (c : Bool) : (s.skipIf c).i = s.i := rfl
@[simp] theorem State.skipIf_pc (s : State) (c : Bool) : (s.skipIf c).pc = if c then s.pc + 4#16 else s.pc + 2#16 := rfl
@[simp] theorem State.skipIf_stack (s : State) (c : Bool) : (s.skipIf c).stack = s.stack := rfl
@[simp] theorem State.skipIf_sp (s : State) (c : Bool) : (s.skipIf c).sp = s.sp := rfl
@[simp] theorem State.skipIf_mem (s : State) (c : Bool) : (s.skipIf c).mem = s.mem := rfl
@[simp] theorem State.skipIf_disp (s : State) (c : Bool) : (s.skipIf c).disp = s.disp := rfl
@[simp] theorem State.skipIf_keys (s : State) (c : Bool) : (s.skipIf c).keys = s.keys := rfl
@[simp] theorem State.skipIf_dt (s : State) (c : Bool) : (s.skipIf c).dt = s.dt := rfl
@[simp] theorem State.skipIf_st (s : State) (c : Bool) : (s.skipIf c).st = s.st := rfl
@[simp] theorem State.skipIf_waiting (s : State) (c : Bool) : (s.skipIf c).waiting = s.waiting := rfl
@[simp] theorem State.skipIf_waitX (s : State) (c : Bool) : (s.skipIf c).waitX = s.waitX := rfl
@[simp] theorem State.skipIf_prevKeys (s : State) (c : Bool) : (s.skipIf c).prevKeys = s.prevKeys := rfl
@[simp] theorem State.skipIf_draws (s : State) (c : Bool) : (s.skipIf c).draws = s.draws := rfl
@[simp] theorem State.skipIf_reg (s : State) (c : Bool) (r : Nibble) : (s.skipIf c).reg r = s.reg r := rfl
@[simp] theorem State.skipIf_readByte (s : State) (c : Bool) (a : Addr) : (s.skipIf c).readByte a = s.readByte a := rfl

/-! ### `setRegFlag` -/

@[simp] theorem State.setRegFlag_i (s : State) (x : Nibble) (r : Byte × Bool) : (s.setRegFlag x r).i = s.i := rfl
@[simp] theorem State.setRegFlag_pc (s : State) (x : Nibble) (r : Byte × Bool) : (s.setRegFlag x r).pc = s.pc := rfl
@[simp] theorem State.setRegFlag_stack (s : State) (x : Nibble) (r : Byte × Bool) : (s.setRegFlag x r).stack = s.stack := rfl
@[simp] theorem State.setRegFlag_sp (s : State) (x : Nibble) (r : Byte × Bool) : (s.setRegFlag x r).sp = s.sp := rfl
@[simp] theorem State.setRegFlag_mem (s : State) (x : Nibble) (r : Byte × Bool) : (s.setRegFlag x r).mem = s.mem := rfl
@[simp] theorem State.setRegFlag_disp (s : State) (x : Nibble) (r : Byte × Bool) : (s.setRegFlag x r).disp = s.disp := rfl
@[simp] theorem State.setRegFlag_keys (s : State) (x : Nibble) (r : Byte × Bool) : (s.setRegFlag x r).keys = s.keys := rfl
@[simp] theorem State.setRegFlag_dt (s : State) (x : Nibble) (r : Byte × Bool) : (s.setRegFlag x r).dt = s.dt := rfl
@[simp] theorem State.setRegFlag_st (s : State) (x : Nibble) (r : Byte × Bool) : (s.setRegFlag x r).st = s.st := rfl
@[simp] theorem State.setRegFlag_waiting (s : State) (x : Nibble) (r : Byte × Bool) : (s.setRegFlag x r).waiting = s.waiting := rfl
@[simp] theorem State.setRegFlag_waitX (s : State) (x : Nibble) (r : Byte × Bool) : (s.setRegFlag x r).waitX = s.waitX := rfl
@[simp] theorem State.setRegFlag_prevKeys (s : State) (x : Nibble) (r : Byte × Bool) : (s.setRegFlag x r).prevKeys = s.prevKeys := rfl
@[simp] theorem State.setRegFlag_draws (s : State) (x : Nibble) (r : Byte × Bool) : (s.setRegFlag x r).draws = s.draws := rfl
@[simp] theorem State.setRegFlag_readByte (s : State) (x : Nibble) (r : Byte × Bool) (a : Addr) :
    (s.setRegFlag x r).readByte a = s.readByte a := rfl

/-! ### Registers after a write (R12, R24) -/

/-- A register after a register write: the value written, or what it held. -/
theorem State.reg_setReg (s : State) (x r : Nibble) (w : Byte) :
    (s.setReg x w).reg r = if r = x then w else s.reg r := by
  simp only [State.reg, State.setReg, Vector.getElem_set, BitVec.toNat_inj, eq_comm]

@[simp] theorem State.reg_setReg_self (s : State) (x : Nibble) (w : Byte) : (s.setReg x w).reg x = w := by
  simp [State.reg_setReg]

@[simp] theorem State.reg_setReg_ne (s : State) {x r : Nibble} (w : Byte) (h : r ≠ x) :
    (s.setReg x w).reg r = s.reg r := by
  simp [State.reg_setReg, h]

/-- A register after a result and its flag: VF holds the flag, also when it is the destination (R24). -/
theorem State.reg_setRegFlag (s : State) (x r : Nibble) (p : Byte × Bool) :
    (s.setRegFlag x p).reg r = if r = vf then flagByte p.2 else if r = x then p.1 else s.reg r := by
  simp only [State.setRegFlag, State.reg_setReg]

/-- Two register files are the same when every register reads the same. -/
theorem State.v_ext {s t : State} (h : ∀ r : Nibble, t.reg r = s.reg r) : t.v = s.v := by
  refine Vector.ext fun k hk => ?_
  simpa [State.reg, Nat.mod_eq_of_lt hk] using h (BitVec.ofNat 4 k)

/-- The random draw alone changes only the draw counter. -/
@[simp] theorem State.reg_draws (s : State) (n : Nat) (r : Nibble) : { s with draws := n }.reg r = s.reg r := rfl

end Sys2Proof.Machine
end

