-- ==== Sys2Proof/Laws/Memory.lean ====
section
/-! SUPPORT. Memory: a read after a write, the canonical form, and what the transfers of several bytes leave (R60, R64,
R68). -/

namespace Sys2Proof.Machine

/-! ### Reads after erase, insert and write -/

theorem Memory.read_eq_zero {m : Memory} {a : Nat} (h : ∀ c ∈ m, c.1 ≠ a) : m.read a = 0#8 := by
  induction m with
  | nil => rfl
  | cons c m ih =>
    simp only [List.mem_cons, forall_eq_or_imp] at h
    simp [Memory.read, h.1, ih h.2]

theorem Memory.read_erase_self (m : Memory) (a : Nat) : (m.erase a).read a = 0#8 :=
  Memory.read_eq_zero fun c hc => by simpa using (List.mem_filter.1 hc).2

theorem Memory.read_erase_ne (m : Memory) {a b : Nat} (h : b ≠ a) : (m.erase a).read b = m.read b := by
  induction m with
  | nil => rfl
  | cons c m ih =>
    by_cases hc : c.1 = a
    · have hb : ¬ c.1 = b := by omega
      simpa [Memory.erase, Memory.read, hc, hb, Ne.symm h] using ih
    · by_cases hb : c.1 = b
      · simp [Memory.erase, Memory.read, h, hb]
      · simpa [Memory.erase, Memory.read, hc, hb] using ih

theorem Memory.read_insert_self {m : Memory} {a : Nat} (w : Byte) (h : ∀ c ∈ m, c.1 ≠ a) :
    (m.insert a w).read a = w := by
  induction m with
  | nil => simp [Memory.insert, Memory.read]
  | cons c m ih =>
    simp only [List.mem_cons, forall_eq_or_imp] at h
    by_cases hlt : a < c.1
    · simp [Memory.insert, Memory.read, hlt]
    · simp [Memory.insert, Memory.read, hlt, h.1, ih h.2]

theorem Memory.read_insert_ne (m : Memory) {a b : Nat} (w : Byte) (h : b ≠ a) :
    (m.insert a w).read b = m.read b := by
  induction m with
  | nil => simp [Memory.insert, Memory.read, Ne.symm h]
  | cons c m ih =>
    by_cases hlt : a < c.1
    · simp [Memory.insert, Memory.read, hlt, Ne.symm h]
    · simp [Memory.insert, Memory.read, hlt, ih]

/-- A read after a write: the byte written at its address, and what was there at every other. -/
theorem Memory.read_write (m : Memory) (a b : Nat) (w : Byte) :
    (m.write a w).read b = if b = a then w else m.read b := by
  have hne : ∀ c ∈ m.erase a, c.1 ≠ a := fun c hc => by simpa using (List.mem_filter.1 hc).2
  by_cases hw : w = 0#8 <;> by_cases hb : b = a
  · simp [Memory.write, hw, hb, Memory.read_erase_self]
  · simp [Memory.write, hw, hb, Memory.read_erase_ne m hb]
  · simp [Memory.write, hw, hb, Memory.read_insert_self w hne]
  · simp [Memory.write, hw, hb, Memory.read_insert_ne _ w hb, Memory.read_erase_ne m hb]

/-- A byte after a byte write (R68). -/
theorem State.readByte_writeByte (s : State) (a b : Addr) (w : Byte) :
    (s.writeByte a w).readByte b = if b = a then w else s.readByte b := by
  simp only [State.readByte, State.writeByte, Memory.read_write, BitVec.toNat_inj]

@[simp] theorem State.readByte_writeByte_self (s : State) (a : Addr) (w : Byte) :
    (s.writeByte a w).readByte a = w := by
  simp [State.readByte_writeByte]

@[simp] theorem State.readByte_writeByte_ne (s : State) {a b : Addr} (w : Byte) (h : b ≠ a) :
    (s.writeByte a w).readByte b = s.readByte b := by
  simp [State.readByte_writeByte, h]

/-! ### The canonical form -/

theorem Memory.mem_insert {m : Memory} {a : Nat} {w : Byte} {c : Host.Cell} :
    c ∈ m.insert a w ↔ c = (a, w) ∨ c ∈ m := by
  induction m with
  | nil => simp [Memory.insert]
  | cons d m ih =>
    by_cases hlt : a < d.1
    · simp [Memory.insert, hlt]
    · simp only [Memory.insert, hlt, if_false, List.mem_cons, ih]
      tauto

theorem Memory.wf_erase {m : Memory} (h : m.wf) (a : Nat) : (m.erase a).wf :=
  ⟨h.1.filter _, fun c hc => h.2 c (List.mem_filter.1 hc).1⟩

theorem Memory.wf_insert {m : Memory} (h : m.wf) {a : Nat} {w : Byte} (ha : a < Config.memSize) (hw : w ≠ 0#8)
    (hne : ∀ c ∈ m, c.1 ≠ a) : (m.insert a w).wf := by
  refine ⟨?_, fun c hc => ?_⟩
  · have hp := h.1
    clear h
    induction m with
    | nil => simp [Memory.insert]
    | cons d m ih =>
      rw [List.pairwise_cons] at hp
      simp only [List.mem_cons, forall_eq_or_imp] at hne
      by_cases hlt : a < d.1
      · simp only [Memory.insert, hlt, if_true, List.pairwise_cons, List.mem_cons, forall_eq_or_imp]
        exact ⟨⟨trivial, fun c hc => lt_trans hlt (hp.1 c hc)⟩, hp.1, hp.2⟩
      · simp only [Memory.insert, hlt, if_false, List.pairwise_cons]
        refine ⟨fun c hc => ?_, ih hne.2 hp.2⟩
        rcases Memory.mem_insert.1 hc with rfl | hc
        · have := hne.1
          simp only
          omega
        · exact hp.1 c hc
  · rcases Memory.mem_insert.1 hc with rfl | hc
    · exact ⟨ha, hw⟩
    · exact h.2 c hc

/-- A write keeps the canonical form. -/
theorem Memory.wf_write {m : Memory} (h : m.wf) {a : Nat} (w : Byte) (ha : a < Config.memSize) : (m.write a w).wf := by
  by_cases hw : w = 0#8
  · simpa [Memory.write, hw] using Memory.wf_erase h a
  · simpa [Memory.write, hw] using
      Memory.wf_insert (Memory.wf_erase h a) ha hw fun c hc => by simpa using (List.mem_filter.1 hc).2

theorem State.wf_writeByte {s : State} (h : s.mem.wf) (a : Addr) (w : Byte) : (s.writeByte a w).mem.wf :=
  Memory.wf_write h w a.isLt

/-! ### Memory after `load` -/

theorem Memory.mem_image {a : Nat} {bs : List Byte} {c : Host.Cell} (h : c ∈ Memory.image a bs) :
    a ≤ c.1 ∧ c.1 < a + bs.length ∧ c.2 ≠ 0#8 := by
  induction bs generalizing a with
  | nil => simp [Memory.image] at h
  | cons b bs ih =>
    by_cases hb : b = 0#8
    · simp only [Memory.image, hb, if_true] at h
      have := ih h
      simp only [List.length_cons]
      exact ⟨by omega, by omega, this.2.2⟩
    · simp only [Memory.image, hb, if_false, List.mem_cons] at h
      rcases h with rfl | h
      · simp [hb]
      · have := ih h
        simp only [List.length_cons]
        exact ⟨by omega, by omega, this.2.2⟩

theorem Memory.pairwise_image (a : Nat) (bs : List Byte) :
    (Memory.image a bs).Pairwise fun c d => c.1 < d.1 := by
  induction bs generalizing a with
  | nil => simp [Memory.image]
  | cons b bs ih =>
    by_cases hb : b = 0#8
    · simpa [Memory.image, hb] using ih (a + 1)
    · simp only [Memory.image, hb, if_false, List.pairwise_cons]
      exact ⟨fun c hc => by have := (Memory.mem_image hc).1; show a < c.1; omega, ih (a + 1)⟩

/-- A byte of an image: the byte at its offset, and 0x00 outside. -/
theorem Memory.read_image (a : Nat) (bs : List Byte) (b : Nat) :
    (Memory.image a bs).read b = if a ≤ b then bs.getD (b - a) 0#8 else 0#8 := by
  induction bs generalizing a with
  | nil => simp [Memory.image, Memory.read]
  | cons w bs ih =>
    have key : (Memory.image a (w :: bs)).read b = if a = b then w else (Memory.image (a + 1) bs).read b := by
      by_cases hw : w = 0#8
      · simp only [Memory.image, hw, if_true]
        split
        · rw [ih, if_neg (by omega)]
        · rfl
      · simp [Memory.image, Memory.read, hw]
    rw [key, ih]
    by_cases hab : a = b
    · simp [hab]
    · by_cases hle : a ≤ b
      · obtain ⟨k, rfl⟩ : ∃ k, b = a + 1 + k := ⟨b - (a + 1), by omega⟩
        rw [if_neg hab, if_pos (by omega), if_pos hle]
        rw [show a + 1 + k - (a + 1) = k by omega, show a + 1 + k - a = k + 1 by omega, List.getD_cons_succ]
      · rw [if_neg hab, if_neg (by omega), if_neg hle]

theorem Memory.read_append {m n : Memory} {b : Nat} (h : ∀ c ∈ m, c.1 = b → c.2 ≠ 0#8) :
    (m ++ n : Memory).read b = if m.read b = 0#8 then n.read b else m.read b := by
  induction m with
  | nil => simp [Memory.read]
  | cons c m ih =>
    simp only [List.mem_cons, forall_eq_or_imp] at h
    simp only [List.cons_append, Memory.read]
    by_cases hc : c.1 = b
    · have := h.1 hc
      simp [hc, this]
    · simpa [hc] using ih h.2

/-! ### Transfers of several bytes -/

/-- What `writeBytes` leaves in the fields other than memory. -/
theorem State.writeBytes_eq (s : State) (k : Nat) (bs : List Byte) :
    s.writeBytes k bs = { s with mem := (s.writeBytes k bs).mem } := by
  induction bs generalizing s k with
  | nil => rfl
  | cons b bs ih => rw [State.writeBytes, ih]; rfl

/-- What `storeRegs` leaves in the fields other than memory. -/
theorem State.storeRegs_eq (s : State) (n : Nat) : s.storeRegs n = { s with mem := (s.storeRegs n).mem } := by
  induction n with
  | zero => rfl
  | succ n ih => rw [State.storeRegs, ih]; rfl

/-- What `loadRegs` leaves in the fields other than the registers. -/
theorem State.loadRegs_eq (s : State) (n : Nat) : s.loadRegs n = { s with v := (s.loadRegs n).v } := by
  induction n with
  | zero => rfl
  | succ n ih => rw [State.loadRegs, ih]; rfl

/-- Two offsets of one transfer, fewer than 4096 apart, have the same address only if they are the same (R70). -/
theorem dataAddr_inj {i : Word} {j k : Nat} (hj : j < 4096) (hk : k < 4096) (h : dataAddr i j = dataAddr i k) :
    j = k := by
  have := congrArg BitVec.toNat h
  simp only [dataAddr, BitVec.toNat_ofNat] at this
  omega

/-- The address of a transfer's byte, `(I + k) & 0x0FFF` (R64). -/
theorem dataAddr_toNat (i : Word) (k : Nat) : (dataAddr i k).toNat = (i.toNat + k) % 4096 := by
  simp [dataAddr]

/-- Memory after `storeRegs` (R204): V[k] at offset k for k < n, and every other byte as before. -/
theorem State.readByte_storeRegs (s : State) {n : Nat} (hn : n ≤ 16) :
    (∀ k < n, (s.storeRegs n).readByte (dataAddr s.i k) = s.reg (BitVec.ofNat 4 k)) ∧
      ∀ a, (∀ k < n, a ≠ dataAddr s.i k) → (s.storeRegs n).readByte a = s.readByte a := by
  induction n with
  | zero => exact ⟨by simp, fun a _ => rfl⟩
  | succ n ih =>
    obtain ⟨ih1, ih2⟩ := ih (by omega)
    refine ⟨fun k hk => ?_, fun a ha => ?_⟩
    · rw [State.storeRegs, State.readByte_writeByte]
      by_cases hkn : k = n
      · simp [hkn]
      · rw [if_neg fun h => hkn (dataAddr_inj (by omega) (by omega) h)]
        exact ih1 k (by omega)
    · rw [State.storeRegs, State.readByte_writeByte, if_neg (ha n (by omega))]
      exact ih2 a fun k hk => ha k (by omega)

/-- Registers after `loadRegs` (R205): the byte at offset r for r < n, and every other register as before. -/
theorem State.reg_loadRegs (s : State) {n : Nat} (hn : n ≤ 16) (r : Nibble) :
    (s.loadRegs n).reg r = if r.toNat < n then s.readByte (dataAddr s.i r.toNat) else s.reg r := by
  induction n with
  | zero => simp [State.loadRegs]
  | succ n ih =>
    rw [State.loadRegs, State.reg_setReg, ih (by omega)]
    have hr : r = BitVec.ofNat 4 n ↔ r.toNat = n := by
      rw [← BitVec.toNat_inj, BitVec.toNat_ofNat, Nat.mod_eq_of_lt (by omega)]
    by_cases h : r.toNat = n
    · rw [if_pos (hr.2 h), if_pos (by omega), h]
    · rw [if_neg fun h' => h (hr.1 h')]
      by_cases hlt : r.toNat < n
      · rw [if_pos hlt, if_pos (by omega)]
      · rw [if_neg hlt, if_neg (by omega)]

theorem State.wf_writeBytes {s : State} (h : s.mem.wf) (k : Nat) (bs : List Byte) : (s.writeBytes k bs).mem.wf := by
  induction bs generalizing s k with
  | nil => exact h
  | cons b bs ih => exact ih (State.wf_writeByte h _ _) _

theorem State.wf_storeRegs {s : State} (h : s.mem.wf) (n : Nat) : (s.storeRegs n).mem.wf := by
  induction n with
  | zero => exact h
  | succ n ih => exact State.wf_writeByte ih _ _

/-- Two memories in canonical form that read the same at every address are the same list. -/
theorem Memory.ext_of_read {m n : Memory} (hm : m.wf) (hn : n.wf) (h : ∀ a, m.read a = n.read a) : m = n := by
  induction m generalizing n with
  | nil =>
    cases n with
    | nil => rfl
    | cons d n => exact absurd (h d.1).symm (by simpa [Memory.read] using (hn.2 d (by simp)).2)
  | cons c m ih =>
    cases n with
    | nil => exact absurd (h c.1) (by simpa [Memory.read] using (hm.2 c (by simp)).2)
    | cons d n =>
      have hm1 := List.pairwise_cons.1 hm.1
      have hn1 := List.pairwise_cons.1 hn.1
      have low : ∀ {e f : Host.Cell} {p : Memory}, (∀ x ∈ p, f.1 < x.1) → e.1 < f.1 →
          Memory.read (f :: p) e.1 = 0#8 := fun hp hlt => by
        refine Memory.read_eq_zero fun x hx => ?_
        rcases List.mem_cons.1 hx with rfl | hx
        · omega
        · have := hp x hx
          omega
      have hfst : c.1 = d.1 := by
        rcases lt_trichotomy c.1 d.1 with hlt | heq | hgt
        · have := h c.1
          rw [low hn1.1 hlt] at this
          exact absurd this (by simpa [Memory.read] using (hm.2 c (by simp)).2)
        · exact heq
        · have := h d.1
          rw [low hm1.1 hgt] at this
          exact absurd this.symm (by simpa [Memory.read] using (hn.2 d (by simp)).2)
      have hcd : c = d := by
        have := h c.1
        simp only [Memory.read, if_true, hfst] at this
        exact Prod.ext hfst this
      subst hcd
      congr 1
      refine ih ⟨hm1.2, fun x hx => hm.2 x (by simp [hx])⟩ ⟨hn1.2, fun x hx => hn.2 x (by simp [hx])⟩ fun a => ?_
      by_cases ha : c.1 = a
      · rw [Memory.read_eq_zero fun x hx => by have := hm1.1 x hx; omega,
          Memory.read_eq_zero fun x hx => by have := hn1.1 x hx; omega]
      · simpa [Memory.read, ha] using h a

end Sys2Proof.Machine
end

