-- ==== Sys2Proof/Laws/Ops.lean ====
section
/-! SUPPORT. One lemma for each shared operation that says what it can do: the stack, the fetch, the operand forms, the flag
computations, the step, and the host's operations. -/

namespace Sys2Proof.Machine

/-! ### Stack (R30) -/

/-- A push that is possible (R152). -/
theorem State.push_of_lt {s : State} (ret : Word) (h : s.sp.val < 16) :
    s.push ret = some { s with stack := s.stack.set s.sp.val ret, sp := ⟨s.sp.val + 1, by omega⟩ } := by
  simp [State.push, h]

/-- A push onto a full stack (R152). -/
theorem State.push_eq_none {s : State} (ret : Word) : s.push ret = none ↔ s.sp.val = 16 := by
  have := s.sp.isLt
  simp only [State.push]
  split <;> simp <;> omega

/-- A pop that is possible (R150). -/
theorem State.pop_of_pos {s : State} (h : 0 < s.sp.val) :
    s.pop = some (s.stack[s.sp.val - 1], { s with sp := ⟨s.sp.val - 1, by omega⟩ }) := by
  simp [State.pop, h]

/-- A pop from an empty stack (R150). -/
theorem State.pop_eq_none {s : State} : s.pop = none ↔ s.sp.val = 0 := by
  simp only [State.pop]
  split <;> simp <;> omega

/-! ### Fetch (R122, R123) -/

theorem State.fetch_of_le {s : State} (h : s.pc.toNat ≤ 0x0FFE) : s.fetch = some s.opcodeAt := by
  simp [State.fetch, State.opcodeAt, Nat.not_lt.2 h]

theorem State.fetch_of_gt {s : State} (h : 0x0FFE < s.pc.toNat) : s.fetch = none := by
  simp [State.fetch, h]

/-- The three outcomes of fetch and decode, in the order of R267. -/
theorem State.fetchInstr_cases (s : State) :
    (0x0FFE < s.pc.toNat ∧ s.fetchInstr = .error (.outOfBounds s.pc)) ∨
      (s.pc.toNat ≤ 0x0FFE ∧ decode s.opcodeAt = none ∧ s.fetchInstr = .error (.unknownOpcode s.opcodeAt s.pc)) ∨
      ∃ i, s.pc.toNat ≤ 0x0FFE ∧ decode s.opcodeAt = some i ∧ s.fetchInstr = .ok i := by
  by_cases h : 0x0FFE < s.pc.toNat
  · exact .inl ⟨h, by simp [State.fetchInstr, State.fetch_of_gt h]⟩
  · have h' := Nat.not_lt.1 h
    cases hd : decode s.opcodeAt with
    | none => exact .inr (.inl ⟨h', rfl, by simp [State.fetchInstr, State.fetch_of_le h', hd]⟩)
    | some i => exact .inr (.inr ⟨i, h', rfl, by simp [State.fetchInstr, State.fetch_of_le h', hd]⟩)

/-- Fetch and decode answer an instruction exactly when `pc` is in range and the bytes there decode to it. -/
theorem State.fetchInstr_eq_ok {s : State} {i : Instr} :
    s.fetchInstr = .ok i ↔ s.pc.toNat ≤ 0x0FFE ∧ decode s.opcodeAt = some i := by
  rcases s.fetchInstr_cases with ⟨h, e⟩ | ⟨h, hd, e⟩ | ⟨j, h, hd, e⟩
  · simp only [e, reduceCtorEq, false_iff]
    omega
  · simp [e, hd]
  · simp [e, hd, h]

/-- The opcode at `pc` depends on `pc` and memory alone. -/
theorem State.opcodeAt_congr {s t : State} (hpc : t.pc = s.pc) (hm : t.mem = s.mem) : t.opcodeAt = s.opcodeAt := by
  simp only [State.opcodeAt, State.readByte, hpc, hm]

/-- Fetch and decode depend on `pc` and memory alone. -/
theorem State.fetchInstr_congr {s t : State} (hpc : t.pc = s.pc) (hm : t.mem = s.mem) : t.fetchInstr = s.fetchInstr := by
  simp only [State.fetchInstr, State.fetch, State.readByte, hpc, hm]

/-! ### Operand forms -/

theorem jumpV0Target_toNat (nnn : Addr) (v0 : Byte) :
    (jumpV0Target Config.jumpV0Mask nnn v0).toNat = nnn.toNat + v0.toNat := by
  have := nnn.isLt
  have := v0.isLt
  simp only [jumpV0Target, Config.jumpV0Mask, BitVec.toNat_add, BitVec.toNat_setWidth, Bool.false_eq_true, if_false]
  omega

/-- The glyph address: the whole byte counts, and the sum fits 12 bits (R202). -/
theorem fontAddr_toNat (x : Byte) : (fontAddr Config.fontDigitMode x).toNat = 0x050 + 5 * x.toNat := by
  have := x.isLt
  simp only [fontAddr, fontDigit, Config.fontDigitMode, Config.fontBase, Config.glyphLen, BitVec.toNat_ofNat]
  omega

/-- The key VX names is that of its low nibble (R242). -/
theorem keyPressed_eq (keys : Word) (x : Byte) :
    keyPressed Config.keyIndexMode keys x = keys.getLsbD (x.toNat % 16) := by
  have : (x &&& 0x0F#8).toNat = x.toNat % 16 := by
    simp [Nat.and_two_pow_sub_one_eq_mod x.toNat 4]
  simp [keyPressed, Config.keyIndexMode, this]

theorem mem_pressedKeys {keys : Word} {k : Nibble} : k ∈ pressedKeys keys ↔ keys.getLsbD k.toNat = true := by
  simp only [pressedKeys, List.mem_map, List.mem_filter, List.mem_range]
  constructor
  · rintro ⟨j, ⟨hj, hb⟩, rfl⟩
    simpa [Nat.mod_eq_of_lt hj] using hb
  · exact fun h => ⟨k.toNat, ⟨k.isLt, h⟩, by simp⟩

theorem pressedKeys_pairwise (keys : Word) : (pressedKeys keys).Pairwise fun j k => j.toNat < k.toNat := by
  rw [pressedKeys, List.pairwise_map]
  refine ((List.pairwise_lt_range (n := 16)).filter _).imp_of_mem fun {j k} hj hk h => ?_
  have hj := List.mem_range.1 (List.mem_filter.1 hj).1
  have hk := List.mem_range.1 (List.mem_filter.1 hk).1
  simpa [Nat.mod_eq_of_lt hj, Nat.mod_eq_of_lt hk] using h

/-- The key FX0A takes: the lowest whose bit is set (R244). -/
theorem pickKey_eq_some {n : Nat} {new : Word} {k : Nibble} :
    pickKey Config.waitKeyPick n new = some k ↔
      new.getLsbD k.toNat = true ∧ ∀ j : Nibble, new.getLsbD j.toNat = true → k.toNat ≤ j.toNat := by
  have hp := pressedKeys_pairwise new
  simp only [pickKey, Config.waitKeyPick]
  simp only [← mem_pressedKeys]
  cases h : pressedKeys new with
  | nil => simp
  | cons a l =>
    rw [h, List.pairwise_cons] at hp
    simp only [List.head?_cons, Option.some.injEq, List.mem_cons, forall_eq_or_imp]
    constructor
    · rintro rfl
      exact ⟨.inl rfl, le_rfl, fun j hj => (hp.1 j hj).le⟩
    · rintro ⟨rfl | hk, hle, -⟩
      · rfl
      · exact absurd (hp.1 k hk) (by omega)

/-- FX0A takes no key exactly when none was newly pressed (R244). -/
theorem pickKey_eq_none {n : Nat} {new : Word} : pickKey Config.waitKeyPick n new = none ↔ new = 0#16 := by
  simp only [pickKey, Config.waitKeyPick, List.head?_eq_none_iff, List.eq_nil_iff_forall_not_mem, mem_pressedKeys]
  constructor
  · intro h
    refine BitVec.eq_of_getLsbD_eq fun j hj => ?_
    have := h (BitVec.ofNat 4 j)
    simpa [Nat.mod_eq_of_lt hj] using this
  · rintro rfl
    simp

/-! ### Flags (R176 to R180, R182) -/

theorem addFlag_eq (x y : Byte) : addFlag x y = (x + y, decide (255 < x.toNat + y.toNat)) := by
  refine Prod.ext (BitVec.eq_of_toNat_eq ?_) rfl
  simp [addFlag, BitVec.toNat_add]

theorem subFlag_eq (x y : Byte) : subFlag x y = (x - y, decide (y.toNat ≤ x.toNat)) := by
  have hx := x.isLt
  have hy := y.isLt
  refine Prod.ext (BitVec.eq_of_toNat_eq ?_) rfl
  simp only [subFlag, BitVec.toNat_ofNat, BitVec.toNat_sub]
  omega

@[simp] theorem flagByte_true : flagByte true = 1#8 := rfl
@[simp] theorem flagByte_false : flagByte false = 0#8 := rfl

/-! ### The two handlers that can fail, and every other (R124, R266) -/

/-- What 2NNN answers (R152). -/
theorem execCall_cases (nnn : Addr) (s : State) :
    (s.sp.val = 16 ∧ execCall nnn s = .fault .stackOverflow) ∨
      ∃ h : s.sp.val < 16, execCall nnn s =
        .next { s with
          pc := nnn.toWord, stack := s.stack.set s.sp.val (s.pc + 2#16), sp := ⟨s.sp.val + 1, by omega⟩ } := by
  by_cases h : s.sp.val < 16
  · exact .inr ⟨h, by rw [execCall, State.push_of_lt _ h]; rfl⟩
  · have h16 : s.sp.val = 16 := by
      have := s.sp.isLt
      omega
    exact .inl ⟨h16, by rw [execCall, (State.push_eq_none _).2 h16]; rfl⟩

/-- What 00EE answers (R150). -/
theorem execRet_cases (s : State) :
    (s.sp.val = 0 ∧ execRet s = .fault .stackUnderflow) ∨
      ∃ h : 0 < s.sp.val, execRet s =
        .next { s with pc := s.stack[s.sp.val - 1], sp := ⟨s.sp.val - 1, by omega⟩ } := by
  by_cases h : 0 < s.sp.val
  · exact .inr ⟨h, by rw [execRet, State.pop_of_pos h]; rfl⟩
  · have h0 : s.sp.val = 0 := by omega
    exact .inl ⟨h0, by rw [execRet, State.pop_eq_none.2 h0]; rfl⟩

/-- A handler answers a next state, or is 2NNN on a full stack, or 00EE on an empty one (R266). -/
theorem exec_outcomes (i : Instr) (s : State) :
    (∃ t, exec i s = .next t) ∨
      ((∃ nnn, i = .call nnn) ∧ s.sp.val = 16 ∧ exec i s = .fault .stackOverflow) ∨
      (i = .ret ∧ s.sp.val = 0 ∧ exec i s = .fault .stackUnderflow) := by
  cases i
  case call nnn =>
    rcases execCall_cases nnn s with ⟨h, e⟩ | ⟨h, e⟩
    · exact .inr (.inl ⟨⟨nnn, rfl⟩, h, e⟩)
    · exact .inl ⟨_, e⟩
  case ret =>
    rcases execRet_cases s with ⟨h, e⟩ | ⟨h, e⟩
    · exact .inr (.inr ⟨rfl, h, e⟩)
    · exact .inl ⟨_, e⟩
  all_goals exact .inl ⟨_, rfl⟩

/-! ### Steps (R120) -/

/-- A RUN step with a decoded instruction is that instruction's handler. -/
theorem step_of_runs {s : State} {i : Instr} (h : s.runs i) : step s = exec i s := by
  simp [step, h.1, State.fetchInstr_eq_ok.2 h.2]

/-- What a step that answers a next state can be: a WAIT_KEY step, or the handler of the instruction at `pc`. -/
theorem step_next_cases {s t : State} (h : step s = .next t) :
    (s.waiting = true ∧ waitKeyStep s = .next t) ∨ ∃ i, s.runs i ∧ exec i s = .next t := by
  cases hw : s.waiting with
  | true => exact .inl ⟨rfl, by simpa [step, hw] using h⟩
  | false =>
    rcases s.fetchInstr_cases with ⟨-, e⟩ | ⟨-, -, e⟩ | ⟨i, hpc, hd, e⟩
    · simp [step, hw, e, raise] at h
    · simp [step, hw, e, raise] at h
    · exact .inr ⟨i, ⟨hw, hpc, hd⟩, by simpa [step, hw, e] using h⟩

/-- What a WAIT_KEY step is (R244): a key newly pressed completes the FX0A with the lowest such key, and otherwise the step
only observes the keypad. -/
theorem waitKeyStep_cases (s : State) :
    (newKeys s.keys s.prevKeys = 0#16 ∧ waitKeyStep s = .next { s with prevKeys := s.keys }) ∨
      ∃ k : Nibble, (newKeys s.keys s.prevKeys).getLsbD k.toNat = true ∧
        (∀ j : Nibble, (newKeys s.keys s.prevKeys).getLsbD j.toNat = true → k.toNat ≤ j.toNat) ∧
        waitKeyStep s =
          .next ({ s with waiting := false, prevKeys := s.keys }.setReg s.waitX k.toByte).advance := by
  cases h : pickKey Config.waitKeyPick s.draws (newKeys s.keys s.prevKeys) with
  | none => exact .inl ⟨pickKey_eq_none.1 h, by simp [waitKeyStep, h]⟩
  | some k =>
    obtain ⟨h1, h2⟩ := pickKey_eq_some.1 h
    exact .inr ⟨k, h1, h2, by
      simp only [waitKeyStep, h]
      simp [drawsAfterPick, Config.waitKeyPick]⟩

/-! ### The host's operations (R15) -/

/-- What `load` answers (R300, R301). -/
theorem load_cases (font : Font) (program : List Byte) (s : State) :
    (3584 < program.length ∧ load font program s = .fault .oversizedProgram) ∨
      (program.length ≤ 3584 ∧ load font program s = .next { State.reset with
        mem := Memory.image 0x050 font.toList ++ Memory.image 0x200 program, draws := s.draws }) := by
  by_cases h : 3584 < program.length
  · exact .inl ⟨h, by simp [load, h, raise]⟩
  · exact .inr ⟨by omega, by simp [load, h]⟩

/-- The memory `load` leaves is in its canonical form. -/
theorem wf_loaded (font : Font) {program : List Byte} (h : program.length ≤ 3584) :
    Memory.wf (Memory.image 0x050 font.toList ++ Memory.image 0x200 program) := by
  have hf : font.toList.length = 80 := by simp
  refine ⟨List.pairwise_append.2 ⟨Memory.pairwise_image _ _, Memory.pairwise_image _ _, fun c hc d hd => ?_⟩,
    fun c hc => ?_⟩
  · have := Memory.mem_image hc
    have := Memory.mem_image hd
    omega
  · simp only [Config.memSize]
    rcases List.mem_append.1 hc with hc | hc
    · have := Memory.mem_image hc
      exact ⟨by omega, this.2.2⟩
    · have := Memory.mem_image hc
      exact ⟨by omega, this.2.2⟩

end Sys2Proof.Machine
end

