-- ==== Sys2Proof/Laws/PerInstr.lean ====
section
/-! SUPPORT. Statements made per instruction. `OwnRow`: the opcode of an instruction has the fixed bits of its own row of
the opcode table, and that row is in the table (R96). -/

namespace Sys2Proof.Laws

/-- The encoding of the instruction is selected by the instruction's own row, which is a row of the table (R96). -/
def OwnRow.Statement (i : Instr) : Prop := i.row.selects (encode i) = true ∧ i.row ∈ opcodeRows

/-- Format `A` with the mask of its rows leaves the family. -/
theorem formatA_masked (f : Nibble) (nnn : Addr) : formatA f nnn &&& 0xF000#16 = f.setWidth 16 <<< 12 := by
  ext i hi
  simp only [formatA, BitVec.getElem_and, BitVec.getElem_or, BitVec.getElem_shiftLeft, BitVec.getElem_setWidth]
  interval_cases i <;> simp

/-- Format `XI` with the mask of its rows leaves the family. -/
theorem formatXI_masked (f x : Nibble) (nn : Byte) : formatXI f x nn &&& 0xF000#16 = f.setWidth 16 <<< 12 := by
  ext i hi
  simp only [formatXI, BitVec.getElem_and, BitVec.getElem_or, BitVec.getElem_shiftLeft, BitVec.getElem_setWidth]
  interval_cases i <;> simp

/-- Format `XF` with the mask of its rows leaves the family and the low byte. -/
theorem formatXF_masked (f x : Nibble) (nn : Byte) :
    formatXI f x nn &&& 0xF0FF#16 = (f.setWidth 16 <<< 12) ||| nn.setWidth 16 := by
  ext i hi
  simp only [formatXI, BitVec.getElem_and, BitVec.getElem_or, BitVec.getElem_shiftLeft, BitVec.getElem_setWidth]
  interval_cases i <;> simp

/-- Format `XYN` with the mask of its row leaves the family. -/
theorem formatXYN_masked (f x y n : Nibble) : formatXYN f x y n &&& 0xF000#16 = f.setWidth 16 <<< 12 := by
  ext i hi
  simp only [formatXYN, BitVec.getElem_and, BitVec.getElem_or, BitVec.getElem_shiftLeft, BitVec.getElem_setWidth]
  interval_cases i <;> simp

/-- Format `XY` with the mask of its rows leaves the family and the low nibble. -/
theorem formatXY_masked (f x y n : Nibble) :
    formatXYN f x y n &&& 0xF00F#16 = (f.setWidth 16 <<< 12) ||| n.setWidth 16 := by
  ext i hi
  simp only [formatXYN, BitVec.getElem_and, BitVec.getElem_or, BitVec.getElem_shiftLeft, BitVec.getElem_setWidth]
  interval_cases i <;> simp

theorem OwnRow.cls : OwnRow.Statement (.cls) := by
  exact ⟨by decide, by decide⟩

theorem OwnRow.ret : OwnRow.Statement (.ret) := by
  exact ⟨by decide, by decide⟩

theorem OwnRow.jp (nnn : Addr) : OwnRow.Statement (.jp nnn) := by
  simp [OwnRow.Statement, Instr.row, encode, Row.selects, formatA_masked, opcodeRows]

theorem OwnRow.call (nnn : Addr) : OwnRow.Statement (.call nnn) := by
  simp [OwnRow.Statement, Instr.row, encode, Row.selects, formatA_masked, opcodeRows]

theorem OwnRow.seImm (x : Nibble) (nn : Byte) : OwnRow.Statement (.seImm x nn) := by
  simp [OwnRow.Statement, Instr.row, encode, Row.selects, formatXI_masked, opcodeRows]

theorem OwnRow.sneImm (x : Nibble) (nn : Byte) : OwnRow.Statement (.sneImm x nn) := by
  simp [OwnRow.Statement, Instr.row, encode, Row.selects, formatXI_masked, opcodeRows]

theorem OwnRow.seReg (x y : Nibble) : OwnRow.Statement (.seReg x y) := by
  simp [OwnRow.Statement, Instr.row, encode, Row.selects, formatXY_masked, opcodeRows]

theorem OwnRow.ldImm (x : Nibble) (nn : Byte) : OwnRow.Statement (.ldImm x nn) := by
  simp [OwnRow.Statement, Instr.row, encode, Row.selects, formatXI_masked, opcodeRows]

theorem OwnRow.addImm (x : Nibble) (nn : Byte) : OwnRow.Statement (.addImm x nn) := by
  simp [OwnRow.Statement, Instr.row, encode, Row.selects, formatXI_masked, opcodeRows]

theorem OwnRow.ldReg (x y : Nibble) : OwnRow.Statement (.ldReg x y) := by
  simp [OwnRow.Statement, Instr.row, encode, Row.selects, formatXY_masked, opcodeRows]

theorem OwnRow.orReg (x y : Nibble) : OwnRow.Statement (.orReg x y) := by
  simp [OwnRow.Statement, Instr.row, encode, Row.selects, formatXY_masked, opcodeRows]

theorem OwnRow.andReg (x y : Nibble) : OwnRow.Statement (.andReg x y) := by
  simp [OwnRow.Statement, Instr.row, encode, Row.selects, formatXY_masked, opcodeRows]

theorem OwnRow.xorReg (x y : Nibble) : OwnRow.Statement (.xorReg x y) := by
  simp [OwnRow.Statement, Instr.row, encode, Row.selects, formatXY_masked, opcodeRows]

theorem OwnRow.addReg (x y : Nibble) : OwnRow.Statement (.addReg x y) := by
  simp [OwnRow.Statement, Instr.row, encode, Row.selects, formatXY_masked, opcodeRows]

theorem OwnRow.subReg (x y : Nibble) : OwnRow.Statement (.subReg x y) := by
  simp [OwnRow.Statement, Instr.row, encode, Row.selects, formatXY_masked, opcodeRows]

theorem OwnRow.shr (x y : Nibble) : OwnRow.Statement (.shr x y) := by
  simp [OwnRow.Statement, Instr.row, encode, Row.selects, formatXY_masked, opcodeRows]

theorem OwnRow.subn (x y : Nibble) : OwnRow.Statement (.subn x y) := by
  simp [OwnRow.Statement, Instr.row, encode, Row.selects, formatXY_masked, opcodeRows]

theorem OwnRow.shl (x y : Nibble) : OwnRow.Statement (.shl x y) := by
  simp [OwnRow.Statement, Instr.row, encode, Row.selects, formatXY_masked, opcodeRows]

theorem OwnRow.sneReg (x y : Nibble) : OwnRow.Statement (.sneReg x y) := by
  simp [OwnRow.Statement, Instr.row, encode, Row.selects, formatXY_masked, opcodeRows]

theorem OwnRow.ldI (nnn : Addr) : OwnRow.Statement (.ldI nnn) := by
  simp [OwnRow.Statement, Instr.row, encode, Row.selects, formatA_masked, opcodeRows]

theorem OwnRow.jpV0 (nnn : Addr) : OwnRow.Statement (.jpV0 nnn) := by
  simp [OwnRow.Statement, Instr.row, encode, Row.selects, formatA_masked, opcodeRows]

theorem OwnRow.rnd (x : Nibble) (nn : Byte) : OwnRow.Statement (.rnd x nn) := by
  simp [OwnRow.Statement, Instr.row, encode, Row.selects, formatXI_masked, opcodeRows]

theorem OwnRow.drw (x y n : Nibble) : OwnRow.Statement (.drw x y n) := by
  simp [OwnRow.Statement, Instr.row, encode, Row.selects, formatXYN_masked, opcodeRows]

theorem OwnRow.skp (x : Nibble) : OwnRow.Statement (.skp x) := by
  simp [OwnRow.Statement, Instr.row, encode, Row.selects, formatXF_masked, opcodeRows]

theorem OwnRow.sknp (x : Nibble) : OwnRow.Statement (.sknp x) := by
  simp [OwnRow.Statement, Instr.row, encode, Row.selects, formatXF_masked, opcodeRows]

theorem OwnRow.ldFromDt (x : Nibble) : OwnRow.Statement (.ldFromDt x) := by
  simp [OwnRow.Statement, Instr.row, encode, Row.selects, formatXF_masked, opcodeRows]

theorem OwnRow.ldKey (x : Nibble) : OwnRow.Statement (.ldKey x) := by
  simp [OwnRow.Statement, Instr.row, encode, Row.selects, formatXF_masked, opcodeRows]

theorem OwnRow.ldDt (x : Nibble) : OwnRow.Statement (.ldDt x) := by
  simp [OwnRow.Statement, Instr.row, encode, Row.selects, formatXF_masked, opcodeRows]

theorem OwnRow.ldSt (x : Nibble) : OwnRow.Statement (.ldSt x) := by
  simp [OwnRow.Statement, Instr.row, encode, Row.selects, formatXF_masked, opcodeRows]

theorem OwnRow.addI (x : Nibble) : OwnRow.Statement (.addI x) := by
  simp [OwnRow.Statement, Instr.row, encode, Row.selects, formatXF_masked, opcodeRows]

theorem OwnRow.ldFont (x : Nibble) : OwnRow.Statement (.ldFont x) := by
  simp [OwnRow.Statement, Instr.row, encode, Row.selects, formatXF_masked, opcodeRows]

theorem OwnRow.bcd (x : Nibble) : OwnRow.Statement (.bcd x) := by
  simp [OwnRow.Statement, Instr.row, encode, Row.selects, formatXF_masked, opcodeRows]

theorem OwnRow.store (x : Nibble) : OwnRow.Statement (.store x) := by
  simp [OwnRow.Statement, Instr.row, encode, Row.selects, formatXF_masked, opcodeRows]

theorem OwnRow.load (x : Nibble) : OwnRow.Statement (.load x) := by
  simp [OwnRow.Statement, Instr.row, encode, Row.selects, formatXF_masked, opcodeRows]

end Sys2Proof.Laws
end

