-- ==== Sys2Proof/Laws/Sprite.lean ====
section
/-! SUPPORT. What drawing a sprite leaves on the display (R221): the pixels its set bits fall on are toggled, and no other,
and the collision says whether one of them was on. -/

namespace Sys2Proof.Machine

@[simp] theorem Display.pixel_clear (x : Fin 64) (y : Fin 32) : Display.clear.pixel x y = false := by
  simp [Display.pixel, Display.clear]

/-- A pixel after a toggle: the one toggled changes, and no other. -/
theorem Display.pixel_toggle (d : Display) (x px : Fin 64) (y py : Fin 32) :
    (d.toggle x y).pixel px py = if px = x ∧ py = y then !d.pixel px py else d.pixel px py := by
  simp only [Display.pixel, Display.toggle, Fin.getElem_fin, Vector.getElem_set]
  by_cases hy : py = y
  · subst hy
    by_cases hx : px = x
    · subst hx
      simp
    · have : ¬ x.val = px.val := fun h => hx (Fin.ext h.symm)
      simp [hx, this]
  · have : ¬ y.val = py.val := fun h => hy (Fin.ext h.symm)
    simp [hy, this]

/-- Two displays are the same when every pixel is. -/
theorem Display.ext_pixel {d e : Display} (h : ∀ x y, d.pixel x y = e.pixel x y) : d = e :=
  Vector.ext fun y hy => Vector.ext fun x hx => h ⟨x, hx⟩ ⟨y, hy⟩

/-- Some set bit among the first `c` columns of row `r` falls on the pixel. -/
def RowCovers (vx vy : Byte) (r : Nat) (b : Byte) (c : Nat) (px : Fin 64) (py : Fin 32) : Prop :=
  ∃ k, k < c ∧ (vx.toNat + k) % 64 = px.val ∧ (vy.toNat + r) % 32 = py.val ∧ b.getLsbD (7 - k) = true

/-- The display and the collision after part of a sprite, as a function of the display before it and of which pixels were
covered. -/
def DrawnFrom (d e : Display × Bool) (P : Fin 64 → Fin 32 → Prop) : Prop :=
  (∀ px py, (P px py → e.1.pixel px py = !d.1.pixel px py) ∧ (¬ P px py → e.1.pixel px py = d.1.pixel px py)) ∧
    (e.2 = true ↔ d.2 = true ∨ ∃ px py, P px py ∧ d.1.pixel px py = true)

theorem DrawnFrom.refl (d : Display × Bool) {P : Fin 64 → Fin 32 → Prop} (h : ∀ px py, ¬ P px py) : DrawnFrom d d P :=
  ⟨fun px py => ⟨fun hp => absurd hp (h px py), fun _ => rfl⟩, by simp [h]⟩

theorem DrawnFrom.congr {d e : Display × Bool} {P Q : Fin 64 → Fin 32 → Prop} (h : DrawnFrom d e P)
    (hPQ : ∀ px py, P px py ↔ Q px py) : DrawnFrom d e Q := by
  obtain rfl : P = Q := funext fun px => funext fun py => propext (hPQ px py)
  exact h

/-- Two parts that cover no pixel in common, one after the other. -/
theorem DrawnFrom.trans {d e f : Display × Bool} {P Q : Fin 64 → Fin 32 → Prop} (h1 : DrawnFrom d e P)
    (h2 : DrawnFrom e f Q) (hdisj : ∀ px py, P px py → ¬ Q px py) : DrawnFrom d f fun px py => P px py ∨ Q px py := by
  refine ⟨fun px py => ⟨?_, ?_⟩, ?_⟩
  · rintro (hp | hq)
    · rw [(h2.1 px py).2 (hdisj px py hp), (h1.1 px py).1 hp]
    · rw [(h2.1 px py).1 hq, (h1.1 px py).2 fun hp => hdisj px py hp hq]
  · intro h
    rw [not_or] at h
    rw [(h2.1 px py).2 h.2, (h1.1 px py).2 h.1]
  · rw [h2.2, h1.2, or_assoc]
    refine or_congr_right ⟨?_, ?_⟩
    · rintro (⟨px, py, hp, hd⟩ | ⟨px, py, hq, he⟩)
      · exact ⟨px, py, .inl hp, hd⟩
      · rw [(h1.1 px py).2 fun hp => hdisj px py hp hq] at he
        exact ⟨px, py, .inr hq, he⟩
    · rintro ⟨px, py, hp | hq, hd⟩
      · exact .inl ⟨px, py, hp, hd⟩
      · refine .inr ⟨px, py, hq, ?_⟩
        rwa [(h1.1 px py).2 fun hp => hdisj px py hp hq]

/-- Drawing one pixel. -/
theorem drawPixel_drawnFrom (d : Display × Bool) (x : Fin 64) (y : Fin 32) :
    DrawnFrom d (drawPixel d (some (x, y))) fun px py => px = x ∧ py = y := by
  refine ⟨fun px py => ⟨fun h => ?_, fun h => ?_⟩, ?_⟩
  · simp [drawPixel, Display.pixel_toggle, h]
  · simp only [drawPixel, Display.pixel_toggle, h, if_false]
  · simp only [drawPixel, Bool.or_eq_true]
    exact or_congr_right ⟨fun h => ⟨x, y, ⟨rfl, rfl⟩, h⟩, fun ⟨px, py, ⟨hx, hy⟩, h⟩ => hx ▸ hy ▸ h⟩

/-- Drawing the first `c` columns of a row. -/
theorem drawRow_drawnFrom (vx vy : Byte) (r : Nat) (b : Byte) (d : Display × Bool) {c : Nat} (hc : c ≤ 8) :
    DrawnFrom d (drawRow Config.drawMode vx vy r b d c) (RowCovers vx vy r b c) := by
  induction c with
  | zero => exact DrawnFrom.refl d fun px py ⟨k, hk, _⟩ => absurd hk (Nat.not_lt_zero k)
  | succ c ih =>
    have ih := ih (by omega)
    by_cases hb : b.getLsbD (7 - c) = true
    · have h1 := drawPixel_drawnFrom (drawRow Config.drawMode vx vy r b d c)
        (Fin.ofNat 64 (vx.toNat + c)) (Fin.ofNat 32 (vy.toNat + r))
      have h2 := (ih.trans h1) (by
        rintro px py ⟨k, hk, hx, -⟩ ⟨rfl, -⟩
        simp only [Fin.ofNat] at hx
        omega)
      have h3 : drawRow Config.drawMode vx vy r b d (c + 1) =
          drawPixel (drawRow Config.drawMode vx vy r b d c)
            (some (Fin.ofNat 64 (vx.toNat + c), Fin.ofNat 32 (vy.toNat + r))) := by
        rw [drawRow, if_pos hb]
        rfl
      rw [h3]
      refine h2.congr fun px py => ⟨?_, ?_⟩
      · rintro (⟨k, hk, h⟩ | ⟨rfl, rfl⟩)
        · exact ⟨k, by omega, h⟩
        · exact ⟨c, by omega, rfl, rfl, hb⟩
      · rintro ⟨k, hk, hx, hy, hbit⟩
        by_cases hkc : k = c
        · subst hkc
          exact .inr ⟨Fin.ext hx.symm, Fin.ext hy.symm⟩
        · exact .inl ⟨k, by omega, hx, hy, hbit⟩
    · rw [drawRow, if_neg hb]
      refine ih.congr fun px py => ⟨fun ⟨k, hk, h⟩ => ⟨k, by omega, h⟩, fun ⟨k, hk, hx, hy, hbit⟩ => ?_⟩
      have : k ≠ c := by
        rintro rfl
        exact hb hbit
      exact ⟨k, by omega, hx, hy, hbit⟩

/-- Drawing a sprite of `n` rows (R221): the pixels that a set bit covers are toggled, no other pixel changes, and the
collision is set exactly when a covered pixel was on. -/
theorem drawSprite_drawnFrom (s : State) (vx vy : Byte) {n : Nat} (hn : n ≤ 32) :
    DrawnFrom (s.disp, false) (drawSprite Config.drawMode s vx vy n) (Covers s vx vy n) := by
  induction n with
  | zero => exact DrawnFrom.refl _ fun px py ⟨r, c, hr, _⟩ => absurd hr (Nat.not_lt_zero r)
  | succ n ih =>
    have ih := ih (by omega)
    have h1 := drawRow_drawnFrom vx vy n (s.readByte (dataAddr s.i n)) (drawSprite Config.drawMode s vx vy n) (le_refl 8)
    refine ((ih.trans h1) ?_).congr fun px py => ⟨?_, ?_⟩
    · rintro px py ⟨r, c, hr, -, -, hy, -⟩ ⟨k, -, -, hy', -⟩
      omega
    · rintro (⟨r, c, hr, h⟩ | ⟨k, hk, h⟩)
      · exact ⟨r, c, by omega, h⟩
      · exact ⟨n, k, by omega, hk, h⟩
    · rintro ⟨r, c, hr, hc, hx, hy, hb⟩
      by_cases hrn : r = n
      · subst hrn
        exact .inr ⟨c, hc, hx, hy, hb⟩
      · exact .inl ⟨r, c, by omega, hc, hx, hy, hb⟩

end Sys2Proof.Machine
end

