-- ==== Sys2Proof/Tests/Slice0.lean ====
section
/-! SUPPORT. Tests and witnesses. Expected results are the spec's (95_test_vectors.md, named by vector table, or the rule
cited); a witness shows a state and operands that meet the hypotheses of the statement it names. -/

namespace Sys2Proof.Tests

open Sys2Proof Sys2Proof.Machine

/-- The state after reset with the word at `pc` = 0x0200, the start state of the spec's vectors. -/
def start (w : Nat) : State := State.reset.withFetchWord 16 w

/-- The same with `pc` elsewhere. -/
def startAt (pc : Word) (w : Nat) : State := (State.reset.setPc pc).withFetchWord 16 w

/-- Does one step answer a next state, with the property? -/
def stepGives (s : State) (p : State → Bool) : Bool :=
  match step s with
  | .next t => p t
  | _ => false

/-- Does one step raise the condition? -/
def stepRaises (s : State) (c : Fault) : Bool :=
  match step s with
  | .fault d => d == c
  | _ => false

/-- The state with one display pixel on. -/
def lit (s : State) (x : Fin 64) (y : Fin 32) : State := s.setDisp (s.disp.toggle x y)

/-- The pixels that are on in the first columns of one row. -/
def rowOf (s : State) (y : Fin 32) : List Nat :=
  (List.finRange 64).filterMap fun x => if s.display x y then some x.val else none

/-! ### Words that are no instruction: one for each family of R97 (T-DEC) -/

theorem test_ill_formed_0 : wellFormedWord 0x0123#16 = false ∧ decode 0x0123#16 = none := by decide
theorem test_ill_formed_0_low : wellFormedWord 0x00E1#16 = false ∧ decode 0x00E1#16 = none := by decide
theorem test_ill_formed_5 : wellFormedWord 0x5121#16 = false ∧ decode 0x5121#16 = none := by decide
theorem test_ill_formed_8 : wellFormedWord 0x8AB8#16 = false ∧ decode 0x8AB8#16 = none := by decide
theorem test_ill_formed_8_top : wellFormedWord 0x8ABF#16 = false ∧ decode 0x8ABF#16 = none := by decide
theorem test_ill_formed_9 : wellFormedWord 0x9121#16 = false ∧ decode 0x9121#16 = none := by decide
theorem test_ill_formed_E : wellFormedWord 0xE1A0#16 = false ∧ decode 0xE1A0#16 = none := by decide
theorem test_ill_formed_F : wellFormedWord 0xF175#16 = false ∧ decode 0xF175#16 = none := by decide

/-- A word of the table that is well-formed, for each mask of R96. -/
theorem test_well_formed : wellFormedWord 0x00E0#16 = true ∧ wellFormedWord 0x1FFF#16 = true ∧
    wellFormedWord 0x8AB7#16 = true ∧ wellFormedWord 0xF165#16 = true := by decide

/-! ### Decoding: every constructor, its word written out bit by bit from R96 (family, X, Y, N or NN or NNN) -/

theorem test_decode_flow :
    decode 0b0000000011101110#16 = some .ret ∧
    decode 0b0001001000000100#16 = some (.jp 0x204#12) ∧
    decode 0b0010101010111100#16 = some (.call 0xABC#12) ∧
    decode 0b1011111100000001#16 = some (.jpV0 0xF01#12) := by decide

theorem test_decode_skips :
    decode 0b0011000101111111#16 = some (.seImm 0x1#4 0x7F#8) ∧
    decode 0b0100101000000111#16 = some (.sneImm 0xA#4 0x07#8) ∧
    decode 0b0101000100100000#16 = some (.seReg 0x1#4 0x2#4) ∧
    decode 0b1001001000010000#16 = some (.sneReg 0x2#4 0x1#4) := by decide

theorem test_decode_immediate :
    decode 0b0110111110101011#16 = some (.ldImm 0xF#4 0xAB#8) ∧
    decode 0b0111000111111110#16 = some (.addImm 0x1#4 0xFE#8) ∧
    decode 0b1100001100001111#16 = some (.rnd 0x3#4 0x0F#8) := by decide

theorem test_decode_registers :
    decode 0b1000101010110000#16 = some (.ldReg 0xA#4 0xB#4) ∧
    decode 0b1000101010110001#16 = some (.orReg 0xA#4 0xB#4) ∧
    decode 0b1000101010110010#16 = some (.andReg 0xA#4 0xB#4) ∧
    decode 0b1000101010110011#16 = some (.xorReg 0xA#4 0xB#4) ∧
    decode 0b1000101010110100#16 = some (.addReg 0xA#4 0xB#4) ∧
    decode 0b1000101010110101#16 = some (.subReg 0xA#4 0xB#4) ∧
    decode 0b1000101010110110#16 = some (.shr 0xA#4 0xB#4) ∧
    decode 0b1000101010110111#16 = some (.subn 0xA#4 0xB#4) ∧
    decode 0b1000101010111110#16 = some (.shl 0xA#4 0xB#4) := by decide

theorem test_decode_index_and_memory :
    decode 0b1010111111111110#16 = some (.ldI 0xFFE#12) ∧
    decode 0b1111001000011110#16 = some (.addI 0x2#4) ∧
    decode 0b1111001100101001#16 = some (.ldFont 0x3#4) ∧
    decode 0b1111000100110011#16 = some (.bcd 0x1#4) ∧
    decode 0b1111001101010101#16 = some (.store 0x3#4) ∧
    decode 0b1111001001100101#16 = some (.load 0x2#4) := by decide

theorem test_decode_display :
    decode 0b0000000011100000#16 = some .cls ∧
    decode 0b1101000100100011#16 = some (.drw 0x1#4 0x2#4 0x3#4) := by decide

theorem test_decode_keypad_and_timers :
    decode 0b1110001110011110#16 = some (.skp 0x3#4) ∧
    decode 0b1110001110100001#16 = some (.sknp 0x3#4) ∧
    decode 0b1111001100001010#16 = some (.ldKey 0x3#4) ∧
    decode 0b1111101100000111#16 = some (.ldFromDt 0xB#4) ∧
    decode 0b1111101000010101#16 = some (.ldDt 0xA#4) ∧
    decode 0b1111000100011000#16 = some (.ldSt 0x1#4) := by decide

/-- A truncated stream and an unknown word are refused, each by its name (R90, R97). -/
theorem test_decode_bytes :
    decodeBytes [0x60#8] = .error .truncated ∧ decodeBytes [0x55#8, 0x55#8] = .error (.unknown 0x5555#16) ∧
      decodeBytes [0x60#8, 0x05#8, 0x12#8] = .ok (.ldImm 0x0#4 0x05#8, [0x12#8]) := by decide

/-- High byte first (R62). -/
theorem test_encode_bytes : encodeBytes (.ldI 0x2F0#12) = [0xA2#8, 0xF0#8] := by decide

/-! ### Control transfer and stack (T-FLOW) -/

theorem test_jp : stepGives (startAt 0x020A#16 0x1204) (fun t => t.pc == 0x0204#16) = true := by decide
theorem test_jp_top : stepGives (start 0x1FFF) (fun t => t.pc == 0x0FFF#16 && stepRaises t (.outOfBounds 0x0FFF#16)) = true := by
  decide
theorem test_call : stepGives { startAt 0x0FFE#16 0x2300 with sp := 2 }
    (fun t => t.stack[2] == 0x1000#16 && t.sp == 3 && t.pc == 0x0300#16) = true := by decide
theorem test_call_overflow : stepRaises { start 0x2300 with sp := 16 } .stackOverflow = true := by decide
theorem test_ret : stepGives { startAt 0x020C#16 0x00EE with sp := 1, stack := Vector.replicate 16 0x0206#16 }
    (fun t => t.sp == 0 && t.pc == 0x0206#16 && t.stack[0] == 0x0206#16) = true := by decide
theorem test_ret_underflow : stepRaises (start 0x00EE) .stackUnderflow = true := by decide
theorem test_jpV0 : stepGives ((start 0xBFFF).setReg 0x0#4 0xFF#8) (fun t => t.pc == 0x10FE#16) = true := by decide
theorem test_jpV0_uses_V0 : stepGives (((start 0xB300).setReg 0x0#4 0x04#8).setReg 0x3#4 0x70#8)
    (fun t => t.pc == 0x0304#16) = true := by decide
theorem test_seImm_taken : stepGives (startAt 0x0208#16 0x3100) (fun t => t.pc == 0x020C#16) = true := by decide
theorem test_seImm_not : stepGives ((startAt 0x0208#16 0x3100).setReg 0x1#4 0x01#8) (fun t => t.pc == 0x020A#16) = true := by
  decide
theorem test_sneImm_not : stepGives ((startAt 0x0300#16 0x4A07).setReg 0xA#4 0x07#8) (fun t => t.pc == 0x0302#16) = true := by
  decide
theorem test_sneImm_taken : stepGives ((startAt 0x0300#16 0x4A07).setReg 0xA#4 0x08#8) (fun t => t.pc == 0x0304#16) = true := by
  decide
theorem test_seReg_taken : stepGives (((start 0x5120).setReg 0x1#4 0x33#8).setReg 0x2#4 0x33#8)
    (fun t => t.pc == 0x0204#16) = true := by decide
theorem test_seReg_not : stepGives (((start 0x5120).setReg 0x1#4 0x33#8).setReg 0x2#4 0x34#8)
    (fun t => t.pc == 0x0202#16) = true := by decide
theorem test_sneReg_taken : stepGives (((start 0x9120).setReg 0x1#4 1#8).setReg 0x2#4 2#8)
    (fun t => t.pc == 0x0204#16) = true := by decide
theorem test_sneReg_not : stepGives ((start 0x9330).setReg 0x3#4 0x5A#8) (fun t => t.pc == 0x0202#16) = true := by decide

/-! ### Load, arithmetic, logic, shifts, random (T-ALU) -/

theorem test_ldImm : stepGives (start 0x6005) (fun t => t.reg 0x0#4 == 0x05#8 && t.pc == 0x0202#16) = true := by decide
theorem test_ldImm_vf : stepGives (start 0x6FAB) (fun t => t.reg 0xF#4 == 0xAB#8) = true := by decide
theorem test_addImm : stepGives ((start 0x7002).setReg 0x0#4 0xFF#8)
    (fun t => t.reg 0x0#4 == 0x01#8 && t.reg 0xF#4 == 0#8) = true := by decide
theorem test_addImm_vf : stepGives ((start 0x7F01).setReg 0xF#4 0xFF#8) (fun t => t.reg 0xF#4 == 0#8) = true := by decide
theorem test_ldReg : stepGives ((start 0x8120).setReg 0x2#4 0x7B#8)
    (fun t => t.reg 0x1#4 == 0x7B#8 && t.reg 0x2#4 == 0x7B#8) = true := by decide
theorem test_orReg : stepGives ((((start 0x8121).setReg 0x1#4 0xF0#8).setReg 0x2#4 0x0F#8).setReg 0xF#4 1#8)
    (fun t => t.reg 0x1#4 == 0xFF#8 && t.reg 0xF#4 == 1#8) = true := by decide
theorem test_andReg : stepGives (((start 0x8122).setReg 0x1#4 0xF0#8).setReg 0x2#4 0x3C#8)
    (fun t => t.reg 0x1#4 == 0x30#8) = true := by decide
theorem test_xorReg : stepGives (((start 0x8123).setReg 0x1#4 0xF0#8).setReg 0x2#4 0x3C#8)
    (fun t => t.reg 0x1#4 == 0xCC#8) = true := by decide
theorem test_addReg_carry : stepGives (((start 0x8014).setReg 0x0#4 0xF0#8).setReg 0x1#4 0x20#8)
    (fun t => t.reg 0x0#4 == 0x10#8 && t.reg 0xF#4 == 1#8) = true := by decide
theorem test_addReg_vf : stepGives (((start 0x8F14).setReg 0xF#4 0x10#8).setReg 0x1#4 0x02#8)
    (fun t => t.reg 0xF#4 == 0#8) = true := by decide
theorem test_subReg_borrow : stepGives (((start 0x8015).setReg 0x0#4 0x05#8).setReg 0x1#4 0x07#8)
    (fun t => t.reg 0x0#4 == 0xFE#8 && t.reg 0xF#4 == 0#8) = true := by decide
theorem test_subReg_equal : stepGives (((start 0x8015).setReg 0x0#4 0x07#8).setReg 0x1#4 0x07#8)
    (fun t => t.reg 0x0#4 == 0x00#8 && t.reg 0xF#4 == 1#8) = true := by decide
theorem test_shr_ignores_y : stepGives (((start 0x8126).setReg 0x1#4 0x80#8).setReg 0x2#4 0xFF#8)
    (fun t => t.reg 0x1#4 == 0x40#8 && t.reg 0x2#4 == 0xFF#8 && t.reg 0xF#4 == 0#8) = true := by decide
theorem test_shr_vf : stepGives ((start 0x8F06).setReg 0xF#4 0x03#8) (fun t => t.reg 0xF#4 == 1#8) = true := by decide
theorem test_subn : stepGives (((start 0x8017).setReg 0x0#4 0x05#8).setReg 0x1#4 0x07#8)
    (fun t => t.reg 0x0#4 == 0x02#8 && t.reg 0xF#4 == 1#8) = true := by decide
theorem test_subn_borrow : stepGives (((start 0x8017).setReg 0x0#4 0x07#8).setReg 0x1#4 0x05#8)
    (fun t => t.reg 0x0#4 == 0xFE#8 && t.reg 0xF#4 == 0#8) = true := by decide
theorem test_shl_ignores_y : stepGives (((start 0x812E).setReg 0x1#4 0x01#8).setReg 0x2#4 0xFF#8)
    (fun t => t.reg 0x1#4 == 0x02#8 && t.reg 0x2#4 == 0xFF#8 && t.reg 0xF#4 == 0#8) = true := by decide
theorem test_shl_vf : stepGives ((start 0x8F0E).setReg 0xF#4 0x81#8) (fun t => t.reg 0xF#4 == 1#8) = true := by decide

/-- CXNN: whatever the random byte is, V3 is it AND NN. -/
theorem test_rnd : ∃ t, step (start 0xC30F) = .next t ∧ t.reg 0x3#4 = Config.randByte 0 &&& 0x0F#8 ∧ t.pc = 0x0202#16 :=
  ⟨_, rfl, rfl, rfl⟩

/-! ### Index and memory (T-MEM) -/

theorem test_ldI : stepGives (start 0xAFFF) (fun t => t.i == 0x0FFF#16) = true := by decide
theorem test_addI_wraps : stepGives (((start 0xF21E).setI 0x0F80#16).setReg 0x2#4 0xFF#8)
    (fun t => t.i == 0x007F#16 && t.reg 0xF#4 == 0#8) = true := by decide
theorem test_ldFont : stepGives ((start 0xF329).setReg 0x3#4 0x0A#8) (fun t => t.i == 0x0082#16) = true := by decide
theorem test_ldFont_whole_byte : stepGives ((start 0xF329).setReg 0x3#4 0xFF#8) (fun t => t.i == 0x054B#16) = true := by decide
theorem test_bcd : stepGives (((start 0xF033).setReg 0x0#4 0xEA#8).setI 0x0300#16)
    (fun t => t.readByte 0x300#12 == 2#8 && t.readByte 0x301#12 == 3#8 && t.readByte 0x302#12 == 4#8) = true := by decide
theorem test_bcd_wraps : stepGives (((start 0xF033).setReg 0x0#4 0x7B#8).setI 0x0FFF#16)
    (fun t => t.readByte 0xFFF#12 == 1#8 && t.readByte 0x000#12 == 2#8 && t.readByte 0x001#12 == 3#8) = true := by decide
theorem test_store_wraps : stepGives
    (((((start 0xF355).setReg 0x0#4 0x11#8).setReg 0x1#4 0x22#8).setReg 0x2#4 0x33#8).setReg 0x3#4 0x44#8 |>.setI 0x0FFE#16)
    (fun t => t.readByte 0xFFE#12 == 0x11#8 && t.readByte 0xFFF#12 == 0x22#8 && t.readByte 0x000#12 == 0x33#8 &&
      t.readByte 0x001#12 == 0x44#8 && t.i == 0x0FFE#16) = true := by decide
theorem test_store_one : stepGives (((start 0xF055).setReg 0x0#4 0xAB#8).setReg 0x1#4 0xCD#8 |>.setI 0x0400#16)
    (fun t => t.readByte 0x400#12 == 0xAB#8 && t.readByte 0x401#12 == 0x00#8) = true := by decide
theorem test_load : stepGives
    ((((((start 0xF265).writeByte 0x300#12 2#8).writeByte 0x301#12 3#8).writeByte 0x302#12 4#8).writeByte 0x303#12 5#8).setReg 0x3#4 0x99#8 |>.setI 0x0300#16)
    (fun t => t.reg 0x0#4 == 2#8 && t.reg 0x1#4 == 3#8 && t.reg 0x2#4 == 4#8 && t.reg 0x3#4 == 0x99#8 &&
      t.i == 0x0300#16) = true := by decide
theorem test_load_wraps : stepGives (((start 0xF165).writeByte 0xFFF#12 0xAA#8).writeByte 0x000#12 0xBB#8 |>.setI 0x0FFF#16)
    (fun t => t.reg 0x0#4 == 0xAA#8 && t.reg 0x1#4 == 0xBB#8) = true := by decide

/-! ### Display (T-DISP) -/

theorem test_cls : stepGives ((lit (lit (start 0x00E0) 0 0) 63 31).setReg 0xF#4 1#8)
    (fun t => rowOf t 0 == [] && rowOf t 31 == [] && t.reg 0xF#4 == 1#8) = true := by decide
theorem test_drw_wraps : stepGives (((start 0xD011).writeByte 0x300#12 0xFF#8).setI 0x0300#16 |>.setReg 0x0#4 60#8)
    (fun t => rowOf t 0 == [0, 1, 2, 3, 60, 61, 62, 63] && t.reg 0xF#4 == 0#8) = true := by decide
theorem test_drw_collides : stepGives
    (lit (lit (lit (lit (((start 0xD011).writeByte 0x300#12 0x3C#8).setI 0x0300#16) 0 0) 1 0) 2 0) 3 0)
    (fun t => rowOf t 0 == [0, 1, 4, 5] && t.reg 0xF#4 == 1#8) = true := by decide

/-! ### Keypad, timers (T-KEY, T-TIME) -/

theorem test_skp : stepGives (setKeys 0x0080#16 ((startAt 0x0208#16 0xE39E).setReg 0x3#4 0x17#8))
    (fun t => t.pc == 0x020C#16) = true := by decide
theorem test_skp_not : stepGives (setKeys 0xFF7F#16 ((startAt 0x0208#16 0xE39E).setReg 0x3#4 0x07#8))
    (fun t => t.pc == 0x020A#16) = true := by decide
theorem test_sknp : stepGives ((startAt 0x0208#16 0xE3A1).setReg 0x3#4 0x07#8) (fun t => t.pc == 0x020C#16) = true := by decide
theorem test_sknp_not : stepGives (setKeys 0x0080#16 ((startAt 0x0208#16 0xE3A1).setReg 0x3#4 0x07#8))
    (fun t => t.pc == 0x020A#16) = true := by decide
theorem test_ldKey : stepGives (setKeys 0x0010#16 (startAt 0x0206#16 0xF30A))
    (fun t => t.waiting && t.waitX == 0x3#4 && t.prevKeys == 0x0010#16 && t.pc == 0x0206#16) = true := by decide
theorem test_wait_lowest : stepGives { State.reset with waiting := true, waitX := 0x3#4, keys := 0x0900#16 }
    (fun t => t.reg 0x3#4 == 0x08#8 && !t.waiting && t.pc == 0x0202#16 && t.prevKeys == 0x0900#16) = true := by decide
theorem test_wait_held_key : stepGives
    { State.reset with waiting := true, waitX := 0xF#4, keys := 0x0011#16, prevKeys := 0x0001#16 }
    (fun t => t.reg 0xF#4 == 0x04#8) = true := by decide
theorem test_ldFromDt : stepGives ((start 0xFB07).setDt 2#8) (fun t => t.reg 0xB#4 == 2#8 && t.dt == 2#8) = true := by decide
theorem test_ldDt : stepGives ((start 0xFA15).setReg 0xA#4 3#8) (fun t => t.dt == 3#8 && t.st == 0#8) = true := by decide
theorem test_ldSt : stepGives ((start 0xF118).setReg 0x1#4 0x1E#8)
    (fun t => t.st == 30#8 && t.soundActive && t.dt == 0#8) = true := by decide
theorem test_tick : (tickTimers ((State.reset.setDt 3#8).setSt 0#8)).dt = 2#8 ∧
    (tickTimers ((State.reset.setDt 3#8).setSt 0#8)).st = 0#8 := by decide

/-! ### Conditions and reset (T-EXC) -/

theorem test_unknown : stepRaises (start 0x5555) (.unknownOpcode 0x5555#16 0x0200#16) = true := by decide
theorem test_nothing_loaded : stepRaises State.reset (.unknownOpcode 0x0000#16 0x0200#16) = true := by decide
theorem test_last_fetch : stepGives (startAt 0x0FFE#16 0x6001) (fun t => t.reg 0x0#4 == 1#8 && t.pc == 0x1000#16) = true := by
  decide
theorem test_out_of_bounds : stepRaises (State.reset.setPc 0x0FFF#16) (.outOfBounds 0x0FFF#16) = true := by decide

/-- A font byte and a program byte after `load` (R300), and an unlisted byte. -/
theorem test_load_places : ∃ t, load (Vector.replicate 80 0xF0#8) [0x60#8, 0x05#8] State.reset = .next t ∧
    t.readByte 0x04F#12 = 0#8 ∧ t.readByte 0x050#12 = 0xF0#8 ∧ t.readByte 0x09F#12 = 0xF0#8 ∧ t.readByte 0x0A0#12 = 0#8 ∧
      t.readByte 0x200#12 = 0x60#8 ∧ t.readByte 0x201#12 = 0x05#8 ∧ t.readByte 0x202#12 = 0#8 :=
  ⟨_, rfl, by decide⟩

/-! ### Witnesses: the hypotheses of the statements are met -/

theorem witness_DecodeThenEncode : decode 0x81F6#16 = some (.shr 0x1#4 0xF#4) := by decide
theorem witness_DecoderFollowsOpcodeTable : decode 0xF033#16 = some (.bcd 0x0#4) ∧ wellFormedWord 0xF033#16 = true := by decide
theorem witness_OpcodeRowsDisjoint : (Instr.row .cls) ∈ opcodeRows ∧ (Instr.row .cls).selects 0x00E0#16 = true := by decide
theorem witness_StepRunsDecodedInstruction : (start 0x6005).waiting = false ∧ (start 0x6005).pc.toNat ≤ 0x0FFE ∧
    decode (opcodeOf ((start 0x6005).readByte (BitVec.ofNat 12 (start 0x6005).pc.toNat))
      ((start 0x6005).readByte (BitVec.ofNat 12 ((start 0x6005).pc.toNat + 1)))) = some (.ldImm 0x0#4 0x05#8) := by decide
theorem witness_StepFollowsTheCycle_wait : { State.reset with waiting := true }.waiting = true := by decide
theorem witness_StepFollowsTheCycle_out : (State.reset.setPc 0x0FFF#16).waiting = false ∧
    0x0FFE < (State.reset.setPc 0x0FFF#16).pc.toNat := by decide
theorem witness_StepFollowsTheCycle_in : (State.reset.setPc 0x0FFE#16).waiting = false ∧
    (State.reset.setPc 0x0FFE#16).pc.toNat ≤ 0x0FFE := by decide

/-- The two clauses of `FetchChecksBounds` at the boundary: the same hypotheses as the two witnesses above. -/
theorem witness_FetchChecksBounds : (State.reset.setPc 0x0FFF#16).fetch = none ∧
    (startAt 0x0FFE#16 0x6001).fetch = some 0x6001#16 := by decide
theorem witness_UnknownOpcodeRaised : step State.reset = .fault (.unknownOpcode 0x0000#16 0x0200#16) := rfl
theorem witness_StackConditionsRaised_full : { start 0x2300 with sp := 16 }.sp.val = 16 ∧
    { start 0x2300 with sp := 16 }.runs (.call 0x300#12) := ⟨rfl, by unfold State.runs; decide⟩
theorem witness_StackConditionsRaised_empty : (start 0x00EE).sp.val = 0 ∧ (start 0x00EE).runs .ret :=
  ⟨rfl, by unfold State.runs; decide⟩

/-- A condition, and a host that goes on after it without a `load`. -/
theorem witness_ConditionLeavesStateAndRepeats : step (start 0x00EE) = .fault .stackUnderflow ∧
    ∀ o ∈ [Operation.setKeys 0xFFFF#16, .tickTimers, .step], o.isLoad = false := ⟨rfl, by decide⟩
theorem witness_ModeTransitions_load : ∃ t, perform (.load (Vector.replicate 80 0#8) []) State.reset = .next t :=
  ⟨_, rfl⟩
theorem witness_ModeTransitions_run : (start 0xF30A).waiting = false ∧ ∃ t, perform .step (start 0xF30A) = .next t :=
  ⟨rfl, _, rfl⟩
theorem witness_ModeTransitions_wait : { State.reset with waiting := true, keys := 1#16 }.waiting = true ∧
    ∃ t, perform .step { State.reset with waiting := true, keys := 1#16 } = .next t := ⟨rfl, _, rfl⟩
theorem witness_ModeTransitions_fault : perform .step (start 0x00EE) = .fault .stackUnderflow := rfl
theorem witness_ModeTransitions_host : ∃ t, perform (.setKeys 1#16) { State.reset with waiting := true } = .next t :=
  ⟨_, rfl⟩
theorem witness_WaitKeyStepTakesLowestNewKey_none : { State.reset with waiting := true, keys := 1#16, prevKeys := 1#16 }.waiting = true ∧
    (1#16 &&& ~~~1#16) = 0#16 := by decide
theorem witness_WaitKeyStepTakesLowestNewKey_new : { State.reset with waiting := true, keys := 0x8001#16, prevKeys := 1#16 }.waiting = true ∧
    (0x8001#16 &&& ~~~1#16) ≠ 0#16 := by decide
theorem witness_StepKeepsTheInvariant : (start 0x6005).Inv ∧ ∃ t, step (start 0x6005) = .next t := ⟨by decide, _, rfl⟩

/-- The invariant in WAIT_KEY mode, with `pc` at the FX0A. -/
theorem witness_StepKeepsTheInvariant_wait : { start 0xF30A with waiting := true, waitX := 0x3#4 }.Inv ∧
    ∃ t, step { start 0xF30A with waiting := true, waitX := 0x3#4 } = .next t := ⟨by decide, _, rfl⟩
theorem witness_OperationsKeepTheInvariant_load : ∃ t, perform (.load (Vector.replicate 80 0xFF#8) [0x12#8, 0x00#8])
    { State.reset with waiting := true, pc := 0xFFFF#16, i := 0xFFFF#16 } = .next t := ⟨_, rfl⟩
theorem witness_OperationsKeepTheInvariant : (start 0x6005).Inv ∧
    ∃ t, performAll [.setKeys 3#16, .step, .tickTimers] (start 0x6005) = .next t := ⟨by decide, _, rfl⟩
theorem witness_LoadLeavesTheResetState : (List.replicate 3584 0x00#8).length ≤ 3584 := List.length_replicate.le
theorem witness_LoadChecksTheSize : 3584 < (List.replicate 3585 0x00#8).length :=
  (Nat.lt_succ_self 3584).trans_eq List.length_replicate.symm
theorem witness_ResetIsLoadOfNothing : { State.reset with pc := 0x0FFF#16 }.draws = 0 := by decide
theorem witness_TicksCountDownAndStepsDoNot : ∃ t, step (start 0xFA15) = .next t := ⟨_, rfl⟩
theorem witness_CallPushesAndReturnPops_call : { State.reset with sp := 15 }.sp.val < 16 := by decide
theorem witness_CallPushesAndReturnPops_ret : 0 < { State.reset with sp := 1 }.sp.val ∧
    (0 : Fin 16).val + 1 = { State.reset with sp := 1 }.sp.val := by decide
theorem witness_CallPushesAndReturnPops_ret_full : 0 < { State.reset with sp := 16 }.sp.val ∧
    (15 : Fin 16).val + 1 = { State.reset with sp := 16 }.sp.val := by decide
theorem witness_ReturnUndoesCall : ∃ t u : State, exec (.call 0x300#12) { State.reset with sp := 15 } = .next t ∧
    u.sp = t.sp ∧ u.stack = t.stack := ⟨_, _, rfl, rfl, rfl⟩
theorem witness_SkipsOnRegisters : (0x1#4 : Nibble) ≠ 0x0#4 := by decide

/-- A destination that is not VF, for every statement that says VF is kept then, and VY apart from VX and VF. -/
theorem witness_other_than_vf : (0x0#4 : Nibble) ≠ 0xF#4 ∧ (0xE#4 : Nibble) ≠ 0x0#4 := by decide
theorem witness_CopyRegister : ∃ t, exec (.ldReg 0x2#4 0x2#4) (State.reset.setReg 0x2#4 0x7B#8) = .next t ∧
    (0x2#4 : Nibble) ≠ 0xF#4 := ⟨_, rfl, by decide⟩
theorem witness_ReadDelayTimer : ∀ y, Instr.drw 0x0#4 0x1#4 0x5#4 ≠ .ldSt y := by simp
theorem witness_BlockTransfers : (0xF#4 : Nibble).toNat ≤ (0xF#4 : Nibble).toNat ∧ (0x0#4 : Nibble).toNat ≤ (0x0#4 : Nibble).toNat := by
  decide
theorem witness_LoadRestoresWhatStoreSaved : ∃ t u w : State, exec (.store 0xF#4) (State.reset.setI 0x0FFE#16) = .next t ∧
    u.i = t.i ∧ u.mem = t.mem ∧ exec (.load 0xF#4) u = .next w := ⟨_, _, _, rfl, rfl, rfl, rfl⟩

/-- A covered pixel that is on, and a pixel that is not covered. -/
theorem witness_DrawTogglesCoveredPixels :
    Covers ((State.reset.writeByte 0x300#12 0x80#8).setI 0x0300#16) 63#8 31#8 1 63 31 ∧
      ¬ Covers ((State.reset.writeByte 0x300#12 0x80#8).setI 0x0300#16) 63#8 31#8 1 0 0 := by
  refine ⟨⟨0, 0, by decide⟩, ?_⟩
  rintro ⟨r, c, hr, -, -, h, -⟩
  obtain rfl : r = 0 := by omega
  exact absurd h (by decide)
theorem witness_DrawTogglesCoveredPixels_on :
    (lit ((State.reset.writeByte 0x300#12 0x80#8).setI 0x0300#16) 63 31).display 63 31 = true := by decide

/-- The second draw, of a sprite with a set bit, from the state the first one left. -/
theorem witness_DrawTwiceErases : ∃ s t u w : State, exec (.drw 0x0#4 0x1#4 0x1#4) s = .next t ∧ u.disp = t.disp ∧ u.i = s.i ∧
    u.mem = s.mem ∧ u.reg 0x0#4 = s.reg 0x0#4 ∧ u.reg 0x1#4 = s.reg 0x1#4 ∧ exec (.drw 0x0#4 0x1#4 0x1#4) u = .next w ∧
    (∀ px py, s.display px py = false) ∧
    ∃ r c, r < (0x1#4 : Nibble).toNat ∧ c < 8 ∧ (s.readByte (dataAddr s.i r)).getLsbD c = true :=
  ⟨(State.reset.writeByte 0x300#12 0x80#8).setI 0x0300#16, _, _, _, rfl, rfl, rfl, rfl, rfl, rfl, rfl,
    fun px py => by simp [State.display, State.setI, State.writeByte, State.reset], 0, 7, by decide⟩

/-- Next states for the frames, one instruction of each shape. -/
theorem witness_frames_of_registers : (∃ t, exec (.ldImm 0x0#4 0x05#8) State.reset = .next t) ∧
    (∃ t, exec (.addReg 0x0#4 0xF#4) State.reset = .next t) ∧ (∃ t, exec (.rnd 0x0#4 0x05#8) State.reset = .next t) ∧
    (∃ t, exec (.load 0x0#4) State.reset = .next t) := ⟨⟨_, rfl⟩, ⟨_, rfl⟩, ⟨_, rfl⟩, ⟨_, rfl⟩⟩
theorem witness_frames_of_jumps : (∃ t, exec (.jp 0x200#12) State.reset = .next t) ∧
    (∃ t, exec (.skp 0x0#4) State.reset = .next t) := ⟨⟨_, rfl⟩, ⟨_, rfl⟩⟩
theorem witness_frames_of_stack : (∃ t, exec (.call 0x200#12) State.reset = .next t) ∧
    (∃ t, exec .ret { State.reset with sp := 1 } = .next t) := ⟨⟨_, rfl⟩, ⟨_, rfl⟩⟩
theorem witness_frames_of_special_registers : (∃ t, exec (.ldI 0x200#12) State.reset = .next t) ∧
    (∃ t, exec (.ldDt 0x0#4) State.reset = .next t) ∧ (∃ t, exec (.ldSt 0x0#4) State.reset = .next t) ∧
    (∃ t, exec (.ldKey 0x0#4) State.reset = .next t) := ⟨⟨_, rfl⟩, ⟨_, rfl⟩, ⟨_, rfl⟩, ⟨_, rfl⟩⟩
theorem witness_frames_of_stores : (∃ t, exec (.bcd 0x0#4) State.reset = .next t) ∧
    (∃ t, exec (.store 0xF#4) State.reset = .next t) ∧
    (∀ k < 3, (0x003#12 : Addr) ≠ dataAddr 0x0000#16 k) ∧ ∀ k ≤ (0xF#4 : Nibble).toNat, (0x010#12 : Addr) ≠ dataAddr 0x0000#16 k :=
  ⟨⟨_, rfl⟩, ⟨_, rfl⟩, by decide, by decide⟩
theorem witness_frames_of_display : (∃ t, exec .cls State.reset = .next t) ∧
    (∃ t, exec (.drw 0x0#4 0x1#4 0x5#4) State.reset = .next t) := ⟨⟨_, rfl⟩, ⟨_, rfl⟩⟩
theorem witness_PcAdvancesByTwoOrFour : setsPc (.drw 0x0#4 0x1#4 0x2#4) = false ∧
    skipTaken (.drw 0x0#4 0x1#4 0x2#4) State.reset = none ∧ skipTaken (.seImm 0x0#4 0x00#8) State.reset = some true ∧
    skipTaken (.seImm 0x0#4 0x01#8) State.reset = some false ∧ ∃ t, exec (.seImm 0x0#4 0x00#8) State.reset = .next t :=
  ⟨by decide, by decide, by decide, by decide, _, rfl⟩
theorem witness_FlagIsZeroOrOneAndElseKept : writesFlag (.drw 0xF#4 0xF#4 0x2#4) = true ∧ writesFlag (.addImm 0x0#4 0xFF#8) = false ∧
    namesDest (.addImm 0x0#4 0xFF#8) 0xF#4 = false := by decide
theorem witness_StateIsWrittenOnlyByItsInstructions : ∃ t, step (start 0xF355) = .next t := ⟨_, rfl⟩

/-- A WAIT_KEY step, and a step that writes VF as a flag: the clauses of the mode and of the registers. -/
theorem witness_StateIsWrittenOnlyByItsInstructions_wait :
    (∃ t, step { State.reset with waiting := true, waitX := 0x3#4, keys := 0x0080#16 } = .next t ∧ t.waiting = false ∧
      t.reg 0x3#4 ≠ State.reset.reg 0x3#4) ∧
    ∃ t, step ((start 0x8106).setReg 0x1#4 0x01#8) = .next t ∧ t.reg 0xF#4 ≠ ((start 0x8106).setReg 0x1#4 0x01#8).reg 0xF#4 :=
  ⟨⟨_, rfl, rfl, by decide⟩, _, rfl, by decide⟩
theorem witness_OnlyRandomInstructionUsesTheDraw : ∀ x nn, Instr.drw 0x0#4 0x1#4 0x5#4 ≠ .rnd x nn := by simp
theorem witness_OtherReadingsOfOpenParameters : pickKey .anyPressed 0 0x0100#16 = some 0x8#4 := by
  have h : pressedKeys 0x0100#16 = [0x8#4] := by decide
  simp [pickKey, h, Nat.mod_one]

end Sys2Proof.Tests
end

section
/-! PROOFS. The fetch (R122): the number an opcode is, and what a step does when nothing can be fetched. -/

namespace Sys2Proof.Machine

/-- Big-endian opcodes (R62): the high byte counts 256 times. -/
theorem opcodeOf_toNat (hi lo : Byte) : (opcodeOf hi lo).toNat = 256 * hi.toNat + lo.toNat := by
  have hhi := hi.isLt
  have hshift : (hi.setWidth 16 <<< 8).toNat = 2 ^ 8 * hi.toNat := by
    simp only [BitVec.toNat_shiftLeft, BitVec.toNat_setWidth, Nat.shiftLeft_eq]
    omega
  have hlo : (lo.setWidth 16).toNat = lo.toNat := BitVec.toNat_setWidth_of_le (by decide)
  rw [opcodeOf, BitVec.toNat_or, hshift, hlo, ← Nat.two_pow_add_eq_or_of_lt lo.isLt]

/-- In the range of a fetch neither address wraps, so the opcode is made of the bytes at `pc` and `pc + 1` of memory. -/
theorem State.opcodeAt_toNat {s : State} (h : s.pc.toNat ≤ 0x0FFE) :
    s.opcodeAt.toNat = 256 * (s.mem.read s.pc.toNat).toNat + (s.mem.read (s.pc.toNat + 1)).toNat := by
  have hpc : (BitVec.ofNat 12 s.pc.toNat).toNat = s.pc.toNat := Nat.mod_eq_of_lt (by omega)
  have hpc1 : (BitVec.ofNat 12 (s.pc.toNat + 1)).toNat = s.pc.toNat + 1 := Nat.mod_eq_of_lt (by omega)
  rw [State.opcodeAt, opcodeOf_toNat, State.readByte, State.readByte, hpc, hpc1]

theorem State.fetchInstr_of_gt {s : State} (h : 0x0FFE < s.pc.toNat) : s.fetchInstr = .error (.outOfBounds s.pc) := by
  simp [State.fetchInstr, State.fetch_of_gt h]

/-- A RUN step whose fetch or decoder raises a condition raises it too. -/
theorem step_of_fetchInstr_error {s : State} {c : Fault} (hw : s.waiting = false) (h : s.fetchInstr = .error c) :
    step s = .fault c := by
  simp [step, hw, h, raise]

/-- A step that raises a condition leaves the state as it was (R268). -/
theorem State.after_step_of_fault {s : State} {c : Fault} (h : step s = .fault c) : s.after .step = s := by
  simp [State.after, perform, h]

/-- Settles O9: above 0x0FFE there is no fetch, and the step's condition keeps the state; else the opcode is the two bytes
at `pc`, the high one first. -/
theorem fetchChecksBounds : Obligations.FetchChecksBounds := by
  intro s
  constructor
  · intro hgt
    refine ⟨State.fetch_of_gt hgt, fun hw => ?_⟩
    have hfault := step_of_fetchInstr_error hw (State.fetchInstr_of_gt hgt)
    exact ⟨hfault, State.after_step_of_fault hfault⟩
  · intro hle
    exact ⟨s.opcodeAt, State.fetch_of_le hle, State.opcodeAt_toNat hle⟩

end Sys2Proof.Machine
end

section
/-! PROOFS. The jump and the skips (R151, R154 to R157): their opcodes, and where they leave `pc`. -/

namespace Sys2Proof

/-- The words of family 5: only those with the low nibble 0 are instructions (R97, R156). -/
theorem decode_formatXYN_five (x y n : Nibble) :
    decode (formatXYN 0x5#4 x y n) = if n = 0x0#4 then some (.seReg x y) else none := by
  simp [decode]

/-- The words of family 9: only those with the low nibble 0 are instructions (R97, R157). -/
theorem decode_formatXYN_nine (x y n : Nibble) :
    decode (formatXYN 0x9#4 x y n) = if n = 0x0#4 then some (.sneReg x y) else none := by
  simp [decode]

end Sys2Proof

namespace Sys2Proof.Machine

/-! ### The meanings as writes of `pc` alone -/

theorem exec_jp (nnn : Addr) (s : State) : exec (.jp nnn) s = .next (s.setPc nnn.toWord) := rfl

theorem exec_seImm (x : Nibble) (nn : Byte) (s : State) : exec (.seImm x nn) s = .next (s.skipIf (s.reg x == nn)) := rfl

theorem exec_sneImm (x : Nibble) (nn : Byte) (s : State) : exec (.sneImm x nn) s = .next (s.skipIf (s.reg x != nn)) := rfl

theorem exec_seReg (x y : Nibble) (s : State) : exec (.seReg x y) s = .next (s.skipIf (s.reg x == s.reg y)) := rfl

theorem exec_sneReg (x y : Nibble) (s : State) : exec (.sneReg x y) s = .next (s.skipIf (s.reg x != s.reg y)) := rfl

/-- A skip whose Boolean condition decides `p` is taken exactly when `p` holds (R125). -/
theorem State.skipIf_pc_of_iff (s : State) {c : Bool} {p : Prop} [Decidable p] (hc : c = true ↔ p) :
    (s.skipIf c).pc = if p then s.pc + 4#16 else s.pc + 2#16 := by
  simp only [State.skipIf_pc, hc]

/-! ### The obligations -/

/-- Settles O26: the 12-bit target fits in `pc`, and `pc` is all that the jump writes. -/
theorem jumpSetsPc : Obligations.JumpSetsPc := by
  intro nnn s
  have hpc : nnn.toWord.toNat = nnn.toNat := BitVec.toNat_setWidth_of_le (by decide)
  exact ⟨by simp [decode], _, exec_jp nnn s, hpc, s.setPc_reg _ _, s.setPc_stack _, s.setPc_sp _⟩

/-- Settles O28: both skips test the same comparison, with opposite outcomes. -/
theorem skipsOnImmediate : Obligations.SkipsOnImmediate := by
  intro x nn s
  refine ⟨by simp [decode], by simp [decode], ?equal, ?unequal⟩
  case equal => exact ⟨_, exec_seImm x nn s, s.skipIf_reg _ _, s.skipIf_pc_of_iff beq_iff_eq⟩
  case unequal => exact ⟨_, exec_sneImm x nn s, s.skipIf_reg _ _, s.skipIf_pc_of_iff bne_iff_ne⟩

/-- Settles O29: a low nibble other than 0 fails the decoder's test, and the skips compare VX with VY. -/
theorem skipsOnRegisters : Obligations.SkipsOnRegisters := by
  intro x y s
  refine ⟨decode_formatXYN_five x y _, decode_formatXYN_nine x y _, fun n hn => ⟨?five, ?nine⟩, ?equal, ?unequal⟩
  case five => rw [decode_formatXYN_five, if_neg hn]
  case nine => rw [decode_formatXYN_nine, if_neg hn]
  case equal => exact ⟨_, exec_seReg x y s, s.skipIf_reg _ _, s.skipIf_pc_of_iff beq_iff_eq⟩
  case unequal => exact ⟨_, exec_sneReg x y s, s.skipIf_reg _ _, s.skipIf_pc_of_iff bne_iff_ne⟩

end Sys2Proof.Machine
end

section
/-! PROOFS. The immediate forms and the copy (R170 to R172): one register is written, and then `pc` moves on. -/

namespace Sys2Proof.Machine

/-! ### The meanings as one register write -/

theorem exec_ldImm (x : Nibble) (nn : Byte) (s : State) : exec (.ldImm x nn) s = .next (s.setReg x nn).advance := rfl

theorem exec_addImm (x : Nibble) (nn : Byte) (s : State) :
    exec (.addImm x nn) s = .next (s.setReg x (s.reg x + nn)).advance := by
  have harm : exec (.addImm x nn) s = .next (s.setReg x (addFlag (s.reg x) nn).1).advance := rfl
  rw [harm, addFlag_eq]

theorem exec_ldReg (x y : Nibble) (s : State) : exec (.ldReg x y) s = .next (s.setReg x (s.reg y)).advance := rfl

/-! ### What such a write leaves unchanged -/

/-- VF is written only when it is the destination (R23). -/
theorem State.reg_vf_setReg_advance (s : State) {x : Nibble} (w : Byte) (h : x ≠ vf) :
    (s.setReg x w).advance.reg vf = s.reg vf := by
  rw [State.advance_reg, State.reg_setReg_ne s w h.symm]

theorem State.setReg_reg_self (s : State) (x : Nibble) : s.setReg x (s.reg x) = s := by
  simp [State.setReg, State.reg]

theorem State.advance_keptBut (s : State) : KeptBut [.pc] s s.advance := by
  intro f hf
  cases f with
  | pc => exact absurd (List.mem_singleton_self _) hf
  | mem => exact s.advance_readByte
  | _ => rfl

/-! ### The obligations -/

/-- Settles O31: each form writes VX alone, and addition of bytes is addition modulo 256. -/
theorem immediateForms : Obligations.ImmediateForms := by
  intro x nn s
  refine ⟨by simp [decode], by simp [decode], ?load, ?add⟩
  case load => exact ⟨_, exec_ldImm x nn s, s.reg_setReg_self x nn, rfl, s.reg_vf_setReg_advance nn⟩
  case add =>
    refine ⟨_, exec_addImm x nn s, ?_, rfl, s.reg_vf_setReg_advance _⟩
    rw [State.advance_reg, State.reg_setReg_self, BitVec.toNat_add]

/-- Settles O32: VY keeps its value, also as the destination, where the write puts back what the register held. -/
theorem copyRegister : Obligations.CopyRegister := by
  intro x y s
  refine ⟨by simp [decode, decode8], _, exec_ldReg x y s, s.reg_setReg_self x _, ?source, rfl,
    s.reg_vf_setReg_advance _, ?same⟩
  case source => rw [State.advance_reg, State.reg_setReg, ite_self]
  case same =>
    rintro rfl
    rw [State.setReg_reg_self]
    exact s.advance_keptBut

end Sys2Proof.Machine
end

section
/-! PROOFS. The index load and the decimal digits (R200, R203): the address that `I` gets, and the bytes that a transfer of
several bytes leaves in memory. -/

namespace Sys2Proof.Machine

/-! ### The meanings as writes of `I` and of memory -/

theorem exec_ldI (nnn : Addr) (s : State) : exec (.ldI nnn) s = .next (s.setI nnn.toWord).advance := rfl

theorem exec_bcd (x : Nibble) (s : State) : exec (.bcd x) s = .next (s.writeBytes 0 (bcdDigits (s.reg x))).advance := rfl

/-! ### Transfers of several bytes (R64, R70) -/

@[simp] theorem State.writeBytes_i (s : State) (k : Nat) (bs : List Byte) : (s.writeBytes k bs).i = s.i := by
  rw [State.writeBytes_eq]

@[simp] theorem State.writeBytes_pc (s : State) (k : Nat) (bs : List Byte) : (s.writeBytes k bs).pc = s.pc := by
  rw [State.writeBytes_eq]

@[simp] theorem State.writeBytes_reg (s : State) (k : Nat) (bs : List Byte) (r : Nibble) :
    (s.writeBytes k bs).reg r = s.reg r := by
  rw [State.writeBytes_eq]; rfl

/-- A transfer leaves every byte that is at none of its addresses. -/
theorem State.readByte_writeBytes_ne {s : State} {k : Nat} {bs : List Byte} {a : Addr}
    (h : ∀ j < bs.length, a ≠ dataAddr s.i (k + j)) : (s.writeBytes k bs).readByte a = s.readByte a := by
  induction bs generalizing s k with
  | nil => rfl
  | cons b bs ih =>
    have hhead : a ≠ dataAddr s.i k := h 0 (Nat.succ_pos _)
    have htail : ∀ j < bs.length, a ≠ dataAddr s.i (k + 1 + j) := fun j hj => by
      rw [Nat.add_assoc, Nat.add_comm 1 j]
      exact h (j + 1) (Nat.succ_lt_succ hj)
    exact (ih (s := s.writeByte (dataAddr s.i k) b) htail).trans (s.readByte_writeByte_ne b hhead)

/-- A transfer that does not come round to its first address leaves byte `j` at offset `k + j`. -/
theorem State.readByte_writeBytes {s : State} {k j : Nat} {bs : List Byte} (hk : k + bs.length ≤ 4096)
    (hj : j < bs.length) : (s.writeBytes k bs).readByte (dataAddr s.i (k + j)) = bs[j] := by
  induction bs generalizing s k j with
  | nil => exact absurd hj (Nat.not_lt_zero j)
  | cons b bs ih =>
    rw [List.length_cons] at hk hj
    cases j with
    | zero =>
      have hlater : ∀ m < bs.length, dataAddr s.i k ≠ dataAddr s.i (k + 1 + m) := fun m hm heq => by
        have := dataAddr_inj (by omega) (by omega) heq
        omega
      have hrest := State.readByte_writeBytes_ne (s := s.writeByte (dataAddr s.i k) b) hlater
      exact hrest.trans (s.readByte_writeByte_self _ b)
    | succ j =>
      have hrest := ih (s := s.writeByte (dataAddr s.i k) b) (k := k + 1) (j := j) (by omega) (by omega)
      rwa [State.writeByte_i, Nat.add_assoc, Nat.add_comm 1 j] at hrest

/-! ### Decimal digits (R203) -/

@[simp] theorem bcdDigits_length (b : Byte) : (bcdDigits b).length = 3 := rfl

/-- The byte that FX33 leaves at offset `k` is digit `k`. -/
theorem State.readByte_bcd (s : State) (b : Byte) {k : Nat} (hk : k < 3) :
    (s.writeBytes 0 (bcdDigits b)).advance.readByte (dataAddr s.i k) = (bcdDigits b)[k]'hk := by
  have hlen : 0 + (bcdDigits b).length ≤ 4096 := by simp
  have hread := State.readByte_writeBytes (s := s) (j := k) hlen hk
  rwa [Nat.zero_add] at hread

/-! ### The obligations -/

/-- Settles O38: the 12-bit address fits in `I`. -/
theorem loadIndex : Obligations.LoadIndex := by
  intro nnn s
  have hi : nnn.toWord.toNat = nnn.toNat := BitVec.toNat_setWidth_of_le (by decide)
  exact ⟨by simp [decode], _, exec_ldI nnn s, hi, rfl, s.setI_reg nnn.toWord vf⟩

/-- Settles O40: the transfer's three addresses differ, so each digit stands where it was written, and each fits in a byte. -/
theorem bcdStoresThreeDigits : Obligations.BcdStoresThreeDigits := by
  intro x s
  have hbyte := (s.reg x).isLt
  refine ⟨by simp [decode, decodeF], _, exec_bcd x s, ?pc, ?i, ?regs, ?hundreds, ?tens, ?ones⟩
  case pc => rw [State.advance_pc, State.writeBytes_pc]
  case i => rw [State.advance_i, State.writeBytes_i]
  case regs => exact fun r => s.writeBytes_reg 0 _ r
  case hundreds =>
    have hread := congrArg BitVec.toNat (s.readByte_bcd (s.reg x) (k := 0) (by decide))
    exact hread.trans (Nat.mod_eq_of_lt (by omega))
  case tens =>
    have hread := congrArg BitVec.toNat (s.readByte_bcd (s.reg x) (k := 1) (by decide))
    exact hread.trans (Nat.mod_eq_of_lt (by omega))
  case ones =>
    have hread := congrArg BitVec.toNat (s.readByte_bcd (s.reg x) (k := 2) (by decide))
    exact hread.trans (Nat.mod_eq_of_lt (by omega))

end Sys2Proof.Machine
end

section
/-! PROOFS. Clearing the display (R220): the display is written, and then `pc` moves on. -/

namespace Sys2Proof.Machine

theorem exec_cls (s : State) : exec .cls s = .next (s.setDisp Display.clear).advance := rfl

/-- No pixel of a display just cleared is on. -/
theorem State.display_setDisp_clear_advance (s : State) (x : Fin 64) (y : Fin 32) :
    (s.setDisp Display.clear).advance.display x y = false := by
  rw [State.display, State.advance_disp, State.setDisp_disp, Display.pixel_clear]

/-- Settles O43: the display written is the clear one, and writing the display and `pc` leaves every register. -/
theorem clearTurnsEveryPixelOff : Obligations.ClearTurnsEveryPixelOff := by
  intro s
  refine ⟨by decide, _, exec_cls s, s.display_setDisp_clear_advance, ?pc, ?flag⟩
  case pc => rw [State.advance_pc, State.setDisp_pc]
  case flag => rw [State.advance_reg, State.setDisp_reg]

end Sys2Proof.Machine
end

section
/-! PROOFS. The timers (R245 to R247, R249): FX15 and FX18 write one each, FX07 reads DT, nothing reads ST, and a tick counts
both down. -/

namespace Sys2Proof.Machine

/-! ### The meanings as one read or write of a timer -/

theorem exec_ldFromDt (x : Nibble) (s : State) : exec (.ldFromDt x) s = .next (s.setReg x s.dt).advance := rfl

theorem exec_ldDt (x : Nibble) (s : State) : exec (.ldDt x) s = .next (s.setDt (s.reg x)).advance := rfl

theorem exec_ldSt (x : Nibble) (s : State) : exec (.ldSt x) s = .next (s.setSt (s.reg x)).advance := rfl

/-- FX18 overwrites ST, whatever it held. -/
theorem exec_ldSt_setSt (x : Nibble) (s : State) (b : Byte) : exec (.ldSt x) (s.setSt b) = exec (.ldSt x) s := rfl

/-! ### The shared operations do not read ST -/

theorem State.push_setSt (s : State) (b : Byte) (ret : Word) :
    (s.setSt b).push ret = (s.push ret).map fun t => t.setSt b := by
  by_cases h : s.sp.val < 16
  · rw [State.push_of_lt ret h, State.push_of_lt (s := s.setSt b) ret h]
    rfl
  · simp [State.push, h]

theorem State.pop_setSt (s : State) (b : Byte) : (s.setSt b).pop = s.pop.map fun p => (p.1, p.2.setSt b) := by
  by_cases h : 0 < s.sp.val
  · rw [State.pop_of_pos h, State.pop_of_pos (s := s.setSt b) h]
    rfl
  · simp [State.pop, h]

theorem State.storeRegs_setSt (s : State) (b : Byte) (n : Nat) : (s.setSt b).storeRegs n = (s.storeRegs n).setSt b := by
  induction n with
  | zero => rfl
  | succ n ih => rw [State.storeRegs, ih]; rfl

theorem State.loadRegs_setSt (s : State) (b : Byte) (n : Nat) : (s.setSt b).loadRegs n = (s.loadRegs n).setSt b := by
  induction n with
  | zero => rfl
  | succ n ih => rw [State.loadRegs, ih]; rfl

/-- A sprite is drawn from the display, `I` and memory alone. -/
theorem drawSprite_congr {s t : State} (hdisp : t.disp = s.disp) (hi : t.i = s.i) (hmem : t.mem = s.mem)
    (mode : DrawMode) (vx vy : Byte) (n : Nat) : drawSprite mode t vx vy n = drawSprite mode s vx vy n := by
  induction n with
  | zero => rw [drawSprite, drawSprite, hdisp]
  | succ n ih => rw [drawSprite, drawSprite, ih, State.readByte, State.readByte, hi, hmem]

/-! ### No instruction but FX18 depends on ST or writes it (R245) -/

theorem execCall_setSt (nnn : Addr) (s : State) (b : Byte) :
    execCall nnn (s.setSt b) = mapNext (fun t => t.setSt b) (execCall nnn s) := by
  rw [execCall, execCall, State.setSt_pc, State.push_setSt]
  cases s.push (s.pc + 2#16) <;> rfl

theorem execRet_setSt (s : State) (b : Byte) : execRet (s.setSt b) = mapNext (fun t => t.setSt b) (execRet s) := by
  rw [execRet, execRet, State.pop_setSt]
  cases s.pop <;> rfl

theorem execDrw_setSt (x y n : Nibble) (s : State) (b : Byte) :
    execDrw x y n (s.setSt b) = mapNext (fun t => t.setSt b) (execDrw x y n s) := by
  rw [execDrw, drawSprite_congr (s.setSt_disp b) (s.setSt_i b) (s.setSt_mem b)]
  rfl

theorem execStore_setSt (x : Nibble) (s : State) (b : Byte) :
    execStore x (s.setSt b) = mapNext (fun t => t.setSt b) (execStore x s) := by
  rw [execStore, State.storeRegs_setSt]
  rfl

theorem execLoad_setSt (x : Nibble) (s : State) (b : Byte) :
    execLoad x (s.setSt b) = mapNext (fun t => t.setSt b) (execLoad x s) := by
  rw [execLoad, State.loadRegs_setSt]
  rfl

/-- Every instruction but FX18 commutes with a write of ST. The handlers that choose by the state or loop over it have lemmas
of their own; every other one writes fields other than ST with values that do not mention it. -/
theorem exec_setSt {i : Instr} (hi : ∀ x, i ≠ .ldSt x) (s : State) (b : Byte) :
    exec i (s.setSt b) = mapNext (fun t => t.setSt b) (exec i s) := by
  cases i
  case ldSt x => exact absurd rfl (hi x)
  case call nnn => exact execCall_setSt nnn s b
  case ret => exact execRet_setSt s b
  case drw x y n => exact execDrw_setSt x y n s b
  case store x => exact execStore_setSt x s b
  case load x => exact execLoad_setSt x s b
  all_goals rfl

/-! ### What a step leaves of the timers -/

/-- Writing back the value that ST holds changes nothing, so by `exec_setSt` the next state has that value too. -/
theorem exec_keeps_st {i : Instr} {s t : State} (hi : ∀ x, i ≠ .ldSt x) (h : exec i s = .next t) : t.st = s.st := by
  have hcomm : exec i s = mapNext (fun u => u.setSt s.st) (exec i s) := exec_setSt hi s s.st
  rw [h] at hcomm
  have hnext : t = t.setSt s.st := Host.Outcome.next.inj hcomm
  rw [hnext, State.setSt_st]

@[simp] theorem State.storeRegs_dt (s : State) (n : Nat) : (s.storeRegs n).dt = s.dt := by
  rw [State.storeRegs_eq]

@[simp] theorem State.loadRegs_dt (s : State) (n : Nat) : (s.loadRegs n).dt = s.dt := by
  rw [State.loadRegs_eq]

theorem exec_keeps_dt {i : Instr} {s t : State} (hi : ∀ x, i ≠ .ldDt x) (h : exec i s = .next t) : t.dt = s.dt := by
  cases i
  case ldDt x => exact absurd rfl (hi x)
  case call nnn =>
    rcases execCall_cases nnn s with ⟨-, hfault⟩ | ⟨_, hnext⟩
    · cases hfault.symm.trans h
    · cases hnext.symm.trans h
      rfl
  case ret =>
    rcases execRet_cases s with ⟨-, hfault⟩ | ⟨_, hnext⟩
    · cases hfault.symm.trans h
    · cases hnext.symm.trans h
      rfl
  case store x =>
    cases h
    exact s.storeRegs_dt _
  case load x =>
    cases h
    exact s.loadRegs_dt _
  all_goals
    cases h
    rfl

theorem waitKeyStep_keeps_timers {s t : State} (h : waitKeyStep s = .next t) : t.dt = s.dt ∧ t.st = s.st := by
  rcases waitKeyStep_cases s with ⟨-, hnext⟩ | ⟨k, -, -, hnext⟩
  all_goals
    cases hnext.symm.trans h
    exact ⟨rfl, rfl⟩

/-! ### The tick (R249) -/

theorem countDown_toNat (b : Byte) : (countDown b).toNat = b.toNat - 1 := by
  by_cases h : b = 0#8
  · simp [countDown, h]
  · rw [countDown, if_neg h]
    bv_omega

theorem tickTimers_keptBut (s : State) : KeptBut [.dt, .st] s (tickTimers s) := by
  intro f hf
  cases f with
  | dt => exact absurd (by decide) hf
  | st => exact absurd (by decide) hf
  | mem => exact fun _ => rfl
  | _ => rfl

/-! ### The obligations -/

/-- Settles O46: FX07 writes VX alone; ST is overwritten by FX18 and not looked at by any other instruction. -/
theorem readDelayTimer : Obligations.ReadDelayTimer := by
  intro x s
  refine ⟨by simp [decode, decodeF], ?read, fun b => ⟨exec_ldSt_setSt x s b, fun i hi => exec_setSt hi s b⟩⟩
  case read => exact ⟨_, exec_ldFromDt x s, s.reg_setReg_self x s.dt, rfl, rfl, s.reg_vf_setReg_advance s.dt⟩

/-- Settles O23: the tick counts each timer down by itself, and a step that changes one runs the instruction that sets it. -/
theorem ticksCountDownAndStepsDoNot : Obligations.TicksCountDownAndStepsDoNot := by
  intro s
  refine ⟨⟨_, rfl, tickTimers_keptBut s, countDown_toNat s.dt, countDown_toNat s.st⟩, fun t h => ?_⟩
  rcases step_next_cases h with ⟨-, hwait⟩ | ⟨i, hruns, hexec⟩
  · obtain ⟨hdt, hst⟩ := waitKeyStep_keeps_timers hwait
    exact ⟨.inl hdt, .inl hst⟩
  · constructor
    · refine or_iff_not_imp_right.2 fun hno => exec_keeps_dt (fun x hx => ?_) hexec
      exact hno ⟨x, hx ▸ hruns⟩
    · refine or_iff_not_imp_right.2 fun hno => exec_keeps_st (fun x hx => ?_) hexec
      exact hno ⟨x, hx ▸ hruns⟩

/-- Settles O47: each form writes its timer alone, and the sound is active while ST is above 0. -/
theorem setTimers : Obligations.SetTimers := by
  intro x s
  refine ⟨by simp [decode, decodeF], by simp [decode, decodeF], ?delay, ?sound⟩
  case delay => exact ⟨_, exec_ldDt x s, rfl, rfl, s.setDt_reg (s.reg x) vf⟩
  case sound => exact ⟨_, exec_ldSt x s, rfl, rfl, s.setSt_reg (s.reg x) vf, decide_eq_true_iff⟩

end Sys2Proof.Machine
end

section
/-! PROOFS. The conditions (R261, R263 to R267): exactly when a step and a `load` raise one, and that raising keeps the
state (R268). -/

namespace Sys2Proof.Machine

/-! ### Exactly when each part of a step raises a condition (R267) -/

/-- A WAIT_KEY step raises nothing: with a new key or without one, it answers a next state. -/
theorem waitKeyStep_ne_fault (s : State) (c : Fault) : waitKeyStep s ≠ .fault c := by
  rcases waitKeyStep_cases s with ⟨-, e⟩ | ⟨_, -, -, e⟩
  · simp [e]
  · simp [e]

theorem execCall_of_full {s : State} (nnn : Addr) (h : s.sp.val = 16) : execCall nnn s = .fault .stackOverflow := by
  rw [execCall, (State.push_eq_none _).2 h, raise]

theorem execRet_of_empty {s : State} (h : s.sp.val = 0) : execRet s = .fault .stackUnderflow := by
  rw [execRet, State.pop_eq_none.2 h, raise]

/-- The handlers that raise a condition: 2NNN on a full stack, and 00EE on an empty one (R264 to R266). -/
theorem exec_eq_fault {i : Instr} {s : State} {c : Fault} :
    exec i s = .fault c ↔
      ((∃ nnn, i = .call nnn) ∧ s.sp.val = 16 ∧ c = .stackOverflow) ∨
        (i = .ret ∧ s.sp.val = 0 ∧ c = .stackUnderflow) := by
  constructor
  · intro h
    rcases exec_outcomes i s with ⟨_, e⟩ | ⟨hi, hsp, e⟩ | ⟨hi, hsp, e⟩
    · cases e.symm.trans h
    · cases e.symm.trans h
      exact .inl ⟨hi, hsp, rfl⟩
    · cases e.symm.trans h
      exact .inr ⟨hi, hsp, rfl⟩
  · rintro (⟨⟨nnn, rfl⟩, hsp, rfl⟩ | ⟨rfl, hsp, rfl⟩)
    · exact execCall_of_full nnn hsp
    · exact execRet_of_empty hsp

/-- The conditions of fetch and decode, in the order of R267. -/
theorem State.fetchInstr_eq_error {s : State} {c : Fault} :
    s.fetchInstr = .error c ↔
      (0x0FFE < s.pc.toNat ∧ c = .outOfBounds s.pc) ∨
        (s.pc.toNat ≤ 0x0FFE ∧ decode s.opcodeAt = none ∧ c = .unknownOpcode s.opcodeAt s.pc) := by
  rcases s.fetchInstr_cases with ⟨hgt, e⟩ | ⟨hle, hd, e⟩ | ⟨i, hle, hd, e⟩
  · simp [e, hgt, Nat.not_le.2 hgt, eq_comm]
  · simp [e, hle, hd, Nat.not_lt.2 hle, eq_comm]
  · simp [e, hd, Nat.not_lt.2 hle]

/-- A step raises a condition exactly when, in RUN mode, the fetch and decode raise it, or the handler of the instruction at
`pc` does. -/
theorem step_eq_fault {s : State} {c : Fault} :
    step s = .fault c ↔
      (s.waiting = false ∧ s.fetchInstr = .error c) ∨ ∃ i, s.runs i ∧ exec i s = .fault c := by
  constructor
  · intro h
    cases hw : s.waiting with
    | true => exact absurd (by simpa [step, hw] using h) (waitKeyStep_ne_fault s c)
    | false =>
      cases hf : s.fetchInstr with
      | error d => exact .inl ⟨rfl, by simpa [step, hw, hf, raise] using h⟩
      | ok i => exact .inr ⟨i, ⟨hw, State.fetchInstr_eq_ok.1 hf⟩, by simpa [step, hw, hf] using h⟩
  · rintro (⟨hw, hf⟩ | ⟨i, hruns, hexec⟩)
    · exact step_of_fetchInstr_error hw hf
    · rw [step_of_runs hruns, hexec]

/-! ### The obligations -/

/-- Settles O10: no handler raises `UnknownOpcode`, so it comes from the decoder, with the opcode and `pc` of the fetch. -/
theorem unknownOpcodeRaised : Obligations.UnknownOpcodeRaised := by
  intro s op pc
  refine ⟨?_, State.after_step_of_fault⟩
  calc step s = .fault (.unknownOpcode op pc)
      ↔ s.waiting = false ∧ s.fetchInstr = .error (.unknownOpcode op pc) := by simp [step_eq_fault, exec_eq_fault]
    _ ↔ _ := by simp [State.fetchInstr_eq_error]

/-- Settles O11: neither the fetch nor the decoder raises a stack condition, so it comes from the handler of 2NNN or of
00EE. -/
theorem stackConditionsRaised : Obligations.StackConditionsRaised := by
  intro s
  refine ⟨?full, ?empty, fun h => h.elim State.after_step_of_fault State.after_step_of_fault⟩
  case full =>
    calc step s = .fault .stackOverflow
        ↔ ∃ i, s.runs i ∧ exec i s = .fault .stackOverflow := by simp [step_eq_fault, State.fetchInstr_eq_error]
      _ ↔ s.sp.val = 16 ∧ ∃ nnn, s.runs (.call nnn) := by simp [exec_eq_fault, and_comm]
  case empty =>
    calc step s = .fault .stackUnderflow
        ↔ ∃ i, s.runs i ∧ exec i s = .fault .stackUnderflow := by simp [step_eq_fault, State.fetchInstr_eq_error]
      _ ↔ s.sp.val = 0 ∧ s.runs .ret := by simp [exec_eq_fault, and_comm]

/-- Settles O20: `load` raises its condition by the size alone, and no part of a step raises `OversizedProgram`. -/
theorem loadChecksTheSize : Obligations.LoadChecksTheSize := by
  intro font program s
  refine ⟨fun hgt => ?large, fun hle => ?fits, fun hstep => ?step⟩
  case large =>
    rcases load_cases font program s with ⟨-, hfault⟩ | ⟨hle, -⟩
    · exact ⟨hfault, by simp [State.after, perform, hfault]⟩
    · omega
  case fits =>
    rcases load_cases font program s with ⟨hgt, -⟩ | ⟨-, hnext⟩
    · omega
    · exact ⟨_, hnext⟩
  case step =>
    rcases step_eq_fault.1 hstep with ⟨-, hfetch⟩ | ⟨_, -, hexec⟩
    · simp [State.fetchInstr_eq_error] at hfetch
    · simp [exec_eq_fault] at hexec

end Sys2Proof.Machine
end

section
/-! PROOFS. The encoding (R91 to R100): the decoder and the encoder undo each other, and the decoder agrees with the opcode
table and with the list of unknown opcodes. -/

namespace Sys2Proof

/-! ### Decoding what was encoded -/

/-- The encoder puts the fields where the decoder reads them, and the fixed nibbles of a row are those of its branch. -/
theorem decode_encode (i : Instr) : decode (encode i) = some i := by
  cases i
  case cls => rfl
  case ret => rfl
  all_goals simp [encode, decode, decode8, decodeE, decodeF]

/-! ### Encoding what was decoded -/

theorem formatA_of_family {op : Word} {f : Nibble} (h : fieldFamily op = f) : formatA f (fieldNNN op) = op :=
  h ▸ formatA_fields op

theorem formatXI_of_family {op : Word} {f : Nibble} (h : fieldFamily op = f) :
    formatXI f (fieldX op) (fieldNN op) = op :=
  h ▸ formatXI_fields op

theorem formatXYN_of_family {op : Word} {f : Nibble} (h : fieldFamily op = f) :
    formatXYN f (fieldX op) (fieldY op) (fieldN op) = op :=
  h ▸ formatXYN_fields op

theorem encode_of_decode0 {op : Word} {i : Instr} (h : decode0 op = some i) : encode i = op := by
  unfold decode0 at h
  split at h
  next hop =>
    cases h
    exact hop.symm
  next =>
    split at h
    next hop =>
      cases h
      exact hop.symm
    next => cases h

theorem encode_of_decode8 {x y n : Nibble} {i : Instr} (h : decode8 x y n = some i) :
    encode i = formatXYN 0x8#4 x y n := by
  unfold decode8 at h
  split at h <;> cases h <;> rfl

theorem encode_of_decodeE {x : Nibble} {nn : Byte} {i : Instr} (h : decodeE x nn = some i) :
    encode i = formatXI 0xE#4 x nn := by
  unfold decodeE at h
  split at h <;> cases h <;> rfl

theorem encode_of_decodeF {x : Nibble} {nn : Byte} {i : Instr} (h : decodeF x nn = some i) :
    encode i = formatXI 0xF#4 x nn := by
  unfold decodeF at h
  split at h <;> cases h <;> rfl

/-- An instruction decoded from a word is encoded as that word: each branch of the decoder reads all the fields of its
format. -/
theorem encode_of_decode {op : Word} {i : Instr} (h : decode op = some i) : encode i = op := by
  unfold decode at h
  split at h
  case h_1 => exact encode_of_decode0 h
  case h_9 hf => exact (encode_of_decode8 h).trans (formatXYN_of_family hf)
  case h_15 hf => exact (encode_of_decodeE h).trans (formatXI_of_family hf)
  case h_16 hf => exact (encode_of_decodeF h).trans (formatXI_of_family hf)
  case h_6 hf | h_10 hf =>
    split at h
    next hn =>
      cases h
      exact (congrArg (formatXYN _ _ _) hn.symm).trans (formatXYN_of_family hf)
    next => cases h
  case h_14 hf =>
    cases h
    exact formatXYN_of_family hf
  case h_2 hf | h_3 hf | h_11 hf | h_12 hf =>
    cases h
    exact formatA_of_family hf
  case h_4 hf | h_5 hf | h_7 hf | h_8 hf | h_13 hf =>
    cases h
    exact formatXI_of_family hf
  case h_17 => cases h

/-! ### The rows of the opcode table -/

theorem ownRow : (i : Instr) → Laws.OwnRow.Statement i
  | .cls => Laws.OwnRow.cls
  | .ret => Laws.OwnRow.ret
  | .jp nnn => Laws.OwnRow.jp nnn
  | .call nnn => Laws.OwnRow.call nnn
  | .seImm x nn => Laws.OwnRow.seImm x nn
  | .sneImm x nn => Laws.OwnRow.sneImm x nn
  | .seReg x y => Laws.OwnRow.seReg x y
  | .ldImm x nn => Laws.OwnRow.ldImm x nn
  | .addImm x nn => Laws.OwnRow.addImm x nn
  | .ldReg x y => Laws.OwnRow.ldReg x y
  | .orReg x y => Laws.OwnRow.orReg x y
  | .andReg x y => Laws.OwnRow.andReg x y
  | .xorReg x y => Laws.OwnRow.xorReg x y
  | .addReg x y => Laws.OwnRow.addReg x y
  | .subReg x y => Laws.OwnRow.subReg x y
  | .shr x y => Laws.OwnRow.shr x y
  | .subn x y => Laws.OwnRow.subn x y
  | .shl x y => Laws.OwnRow.shl x y
  | .sneReg x y => Laws.OwnRow.sneReg x y
  | .ldI nnn => Laws.OwnRow.ldI nnn
  | .jpV0 nnn => Laws.OwnRow.jpV0 nnn
  | .rnd x nn => Laws.OwnRow.rnd x nn
  | .drw x y n => Laws.OwnRow.drw x y n
  | .skp x => Laws.OwnRow.skp x
  | .sknp x => Laws.OwnRow.sknp x
  | .ldFromDt x => Laws.OwnRow.ldFromDt x
  | .ldKey x => Laws.OwnRow.ldKey x
  | .ldDt x => Laws.OwnRow.ldDt x
  | .ldSt x => Laws.OwnRow.ldSt x
  | .addI x => Laws.OwnRow.addI x
  | .ldFont x => Laws.OwnRow.ldFont x
  | .bcd x => Laws.OwnRow.bcd x
  | .store x => Laws.OwnRow.store x
  | .load x => Laws.OwnRow.load x

theorem Row.selects_iff {r : Row} {op : Word} : r.selects op = true ↔ op &&& r.mask = r.value := beq_iff_eq

theorem fieldFamily_and (a b : Word) : fieldFamily (a &&& b) = fieldFamily a &&& fieldFamily b :=
  BitVec.extractLsb'_and ..

theorem fieldN_and (a b : Word) : fieldN (a &&& b) = fieldN a &&& fieldN b := BitVec.extractLsb'_and ..

theorem fieldNN_and (a b : Word) : fieldNN (a &&& b) = fieldNN a &&& fieldNN b := BitVec.extractLsb'_and ..

/-- A word that a row selects agrees with the row's value on the family, and on the low nibble or byte when the mask has
it. -/
theorem Row.fields_of_selects {r : Row} {op : Word} (h : r.selects op = true) :
    (fieldFamily r.mask = 0xF#4 → fieldFamily op = fieldFamily r.value) ∧
      (fieldN r.mask = 0xF#4 → fieldN op = fieldN r.value) ∧
      (fieldNN r.mask = 0xFF#8 → fieldNN op = fieldNN r.value) := by
  rw [← Row.selects_iff.1 h, fieldFamily_and, fieldN_and, fieldNN_and]
  refine ⟨fun hm => ?_, fun hm => ?_, fun hm => ?_⟩
  · rw [hm]; exact BitVec.and_allOnes.symm
  · rw [hm]; exact BitVec.and_allOnes.symm
  · rw [hm]; exact BitVec.and_allOnes.symm

theorem wellFormedWord_iff {op : Word} : wellFormedWord op = true ↔ ∃ r ∈ opcodeRows, r.selects op = true := by
  simp [wellFormedWord]

/-! ### The words that are no instruction (R97) -/

/-- The decoder has a branch for each of the 16 families. -/
theorem nibble_mem_all : ∀ f : Nibble, f ∈ [0x0#4, 0x1#4, 0x2#4, 0x3#4, 0x4#4, 0x5#4, 0x6#4, 0x7#4, 0x8#4, 0x9#4, 0xA#4,
    0xB#4, 0xC#4, 0xD#4, 0xE#4, 0xF#4] := by decide

theorem decode0_eq_none {op : Word} : decode0 op = none ↔ op ≠ 0x00E0#16 ∧ op ≠ 0x00EE#16 := by
  unfold decode0
  split
  next hop => simp [hop]
  next hcls => split <;> simp_all

theorem decode8_eq_none {x y n : Nibble} :
    decode8 x y n = none ↔ n ∈ [0x8#4, 0x9#4, 0xA#4, 0xB#4, 0xC#4, 0xD#4, 0xF#4] := by
  obtain ⟨⟨k, hk⟩⟩ := n
  interval_cases k <;> simp [decode8]

theorem decodeE_eq_none {x : Nibble} {nn : Byte} : decodeE x nn = none ↔ nn ∉ [0x9E#8, 0xA1#8] := by
  unfold decodeE
  split <;> simp_all

theorem decodeF_eq_none {x : Nibble} {nn : Byte} :
    decodeF x nn = none ↔
      nn ∉ [0x07#8, 0x0A#8, 0x15#8, 0x18#8, 0x1E#8, 0x29#8, 0x33#8, 0x55#8, 0x65#8] := by
  unfold decodeF
  split <;> simp_all

/-- Settles O5: the families are the decoder's branches, and each answers nothing on the words listed. -/
theorem unknownOpcodesAreThoseListed : Obligations.UnknownOpcodesAreThoseListed := by
  intro op
  unfold decode
  split
  case h_17 =>
    have hall := nibble_mem_all (fieldFamily op)
    simp_all
  case h_1 hf => simp [hf, decode0_eq_none]
  case h_9 hf => simp [hf, decode8_eq_none]
  case h_15 hf => simp [hf, decodeE_eq_none]
  case h_16 hf => simp [hf, decodeF_eq_none]
  all_goals
    rename_i hf
    simp [hf]

/-- In the families with unknown words the rows of the table fix the bits that the decoder tests, and none of them at a
value that is listed as unknown. -/
theorem Row.tested_of_mem {r : Row} (hr : r ∈ opcodeRows) :
    fieldFamily r.mask = 0xF#4 ∧
    (fieldFamily r.value = 0x0#4 → r.mask = 0xFFFF#16 ∧ (r.value = 0x00E0#16 ∨ r.value = 0x00EE#16)) ∧
    (fieldFamily r.value = 0x5#4 → fieldN r.mask = 0xF#4 ∧ fieldN r.value = 0x0#4) ∧
    (fieldFamily r.value = 0x8#4 →
      fieldN r.mask = 0xF#4 ∧ fieldN r.value ∉ [0x8#4, 0x9#4, 0xA#4, 0xB#4, 0xC#4, 0xD#4, 0xF#4]) ∧
    (fieldFamily r.value = 0x9#4 → fieldN r.mask = 0xF#4 ∧ fieldN r.value = 0x0#4) ∧
    (fieldFamily r.value = 0xE#4 → fieldNN r.mask = 0xFF#8 ∧ fieldNN r.value ∈ [0x9E#8, 0xA1#8]) ∧
    (fieldFamily r.value = 0xF#4 → fieldNN r.mask = 0xFF#8 ∧
      fieldNN r.value ∈ [0x07#8, 0x0A#8, 0x15#8, 0x18#8, 0x1E#8, 0x29#8, 0x33#8, 0x55#8, 0x65#8]) := by
  revert r
  decide

/-- A word that a row of the table selects decodes: it agrees with the row on the bits that could make it unknown. -/
theorem decode_ne_none_of_selects {r : Row} {op : Word} (hr : r ∈ opcodeRows) (h : r.selects op = true) :
    decode op ≠ none := by
  intro hnone
  obtain ⟨hfamily, hn, hnn⟩ := Row.fields_of_selects h
  obtain ⟨hmask, h0, h5, h8, h9, hE, hF⟩ := Row.tested_of_mem hr
  have hrow : fieldFamily r.value = fieldFamily op := (hfamily hmask).symm
  rcases (unknownOpcodesAreThoseListed op).1 hnone with
    ⟨hf, hcls, hret⟩ | ⟨hf, hunknown⟩ | ⟨hf, hunknown⟩ | ⟨hf, hunknown⟩ | ⟨hf, hunknown⟩ | ⟨hf, hunknown⟩
  · obtain ⟨hall, hvalue⟩ := h0 (hrow.trans hf)
    have hop : op = r.value := by
      rw [← Row.selects_iff.1 h, hall]
      exact BitVec.and_allOnes.symm
    exact hvalue.elim (fun hv => hcls (hop.trans hv)) fun hv => hret (hop.trans hv)
  · obtain ⟨hm, hv⟩ := h5 (hrow.trans hf)
    exact hunknown ((hn hm).trans hv)
  · obtain ⟨hm, hv⟩ := h8 (hrow.trans hf)
    exact hv (hn hm ▸ hunknown)
  · obtain ⟨hm, hv⟩ := h9 (hrow.trans hf)
    exact hunknown ((hn hm).trans hv)
  · obtain ⟨hm, hv⟩ := hE (hrow.trans hf)
    exact hunknown ((hnn hm).symm ▸ hv)
  · obtain ⟨hm, hv⟩ := hF (hrow.trans hf)
    exact hunknown ((hnn hm).symm ▸ hv)

/-! ### The obligations -/

/-- Settles O1: decoding and encoding use the same fields. -/
theorem encodeThenDecode : Obligations.EncodeThenDecode := decode_encode

/-- Settles O2: the fields that the decoder reads make up the word again. -/
theorem decodeThenEncode : Obligations.DecodeThenEncode := fun _ _ => encode_of_decode

/-- Settles O3: an instruction decoded from a word is encoded as it and so has the fixed bits of its row, and the fixed bits
of a row lead the decoder to an instruction. -/
theorem decoderFollowsOpcodeTable : Obligations.DecoderFollowsOpcodeTable := by
  intro op
  have hrow : ∀ i, decode op = some i → i.row ∈ opcodeRows ∧ i.row.selects op = true := by
    intro i hi
    obtain ⟨hsel, hmem⟩ := ownRow i
    rw [encode_of_decode hi] at hsel
    exact ⟨hmem, hsel⟩
  refine ⟨hrow, ?_⟩
  rw [wellFormedWord_iff]
  constructor
  · rintro ⟨i, hi⟩
    exact ⟨i.row, hrow i hi⟩
  · rintro ⟨r, hr, hsel⟩
    exact Option.ne_none_iff_exists'.1 (decode_ne_none_of_selects hr hsel)

/-- Settles O4: two rows that select one word agree on the bits that both masks have, and no two rows of the table do. -/
theorem opcodeRowsDisjoint : Obligations.OpcodeRowsDisjoint := by
  refine ⟨by decide, by decide, ?_⟩
  have key : ∀ r ∈ opcodeRows, ∀ q ∈ opcodeRows, r.value &&& q.mask = q.value &&& r.mask → r = q := by decide
  intro op r q hr hq h1 h2
  refine key r hr q hq ?_
  rw [← Row.selects_iff.1 h1, ← Row.selects_iff.1 h2, BitVec.and_assoc, BitVec.and_assoc, BitVec.and_comm q.mask]

/-- Settles O6: each word is decoded as it stands. -/
theorem sampleOpcodesDecode : Obligations.SampleOpcodesDecode := by
  unfold Obligations.SampleOpcodesDecode
  decide

end Sys2Proof
end

section
/-! PROOFS. Frames (the frame rule, D1): the fields that each instruction writes, said once, and what follows for each. -/

namespace Sys2Proof.Machine

/-! ### The fields an instruction writes -/

/-- The fields that an instruction may write. -/
def writtenFields : Instr → List Field
  | .cls => [.pc, .disp]
  | .ret => [.pc, .sp]
  | .call _ => [.pc, .sp, .stack]
  | .jp _ | .jpV0 _ | .seImm _ _ | .sneImm _ _ | .seReg _ _ | .sneReg _ _ | .skp _ | .sknp _ => [.pc]
  | .ldImm _ _ | .addImm _ _ | .ldReg _ _ | .orReg _ _ | .andReg _ _ | .xorReg _ _ | .addReg _ _ | .subReg _ _
  | .shr _ _ | .subn _ _ | .shl _ _ | .ldFromDt _ | .load _ => [.pc, .v]
  | .rnd _ _ => [.pc, .v, .draws]
  | .ldI _ | .addI _ | .ldFont _ => [.pc, .i]
  | .drw _ _ _ => [.pc, .disp, .v]
  | .ldKey _ => [.waiting, .waitX, .prevKeys]
  | .ldDt _ => [.pc, .dt]
  | .ldSt _ => [.pc, .st]
  | .bcd _ | .store _ => [.pc, .mem]

/-- `s` with the listed fields as they are in `t`. -/
def State.withFields (s : State) (fs : List Field) (t : State) : State where
  v := if .v ∈ fs then t.v else s.v
  i := if .i ∈ fs then t.i else s.i
  pc := if .pc ∈ fs then t.pc else s.pc
  stack := if .stack ∈ fs then t.stack else s.stack
  sp := if .sp ∈ fs then t.sp else s.sp
  mem := if .mem ∈ fs then t.mem else s.mem
  disp := if .disp ∈ fs then t.disp else s.disp
  keys := if .keys ∈ fs then t.keys else s.keys
  dt := if .dt ∈ fs then t.dt else s.dt
  st := if .st ∈ fs then t.st else s.st
  waiting := if .waiting ∈ fs then t.waiting else s.waiting
  waitX := if .waitX ∈ fs then t.waitX else s.waitX
  prevKeys := if .prevKeys ∈ fs then t.prevKeys else s.prevKeys
  draws := if .draws ∈ fs then t.draws else s.draws

/-- Only the listed fields differ between the two states; unlike `KeptBut` this says of memory that it is the same list. -/
def ChangesOnly (fs : List Field) (s t : State) : Prop := t = s.withFields fs t

theorem ChangesOnly.mem_eq {fs : List Field} {s t : State} (h : ChangesOnly fs s t) (hf : .mem ∉ fs) :
    t.mem = s.mem := by
  rw [h, State.withFields, if_neg hf]

theorem ChangesOnly.keptBut {fs : List Field} {s t : State} (h : ChangesOnly fs s t) : KeptBut fs s t := by
  intro f hf
  cases f with
  | mem => intro a; rw [State.readByte, h.mem_eq hf, State.readByte]
  | _ => rw [h]; exact if_neg hf

theorem ChangesOnly.reg_eq {fs : List Field} {s t : State} (h : ChangesOnly fs s t) (hf : .v ∉ fs) (r : Nibble) :
    t.reg r = s.reg r := by
  have hv : t.v = s.v := h.keptBut .v hf
  rw [State.reg, State.reg, hv]

/-- An instruction changes no field but those listed for it. The handlers that can fail and those that loop have their
lemmas under Laws; every other handler writes the fields in plain sight. -/
theorem exec_changesOnly {i : Instr} {s t : State} (h : exec i s = .next t) : ChangesOnly (writtenFields i) s t := by
  cases i
  case call nnn =>
    rcases execCall_cases nnn s with ⟨-, hfault⟩ | ⟨_, hnext⟩
    · cases hfault.symm.trans h
    · cases hnext.symm.trans h
      rfl
  case ret =>
    rcases execRet_cases s with ⟨-, hfault⟩ | ⟨_, hnext⟩
    · cases hfault.symm.trans h
    · cases hnext.symm.trans h
      rfl
  case bcd x =>
    cases h
    rw [State.writeBytes_eq]
    rfl
  case store x =>
    cases h
    rw [State.storeRegs_eq]
    rfl
  case load x =>
    cases h
    rw [State.loadRegs_eq]
    rfl
  all_goals
    cases h
    rfl

theorem exec_keptBut {i : Instr} {s t : State} (h : exec i s = .next t) : KeptBut (writtenFields i) s t :=
  (exec_changesOnly h).keptBut

/-- A WAIT_KEY step writes V[`wait_x`], `pc`, the mode and the last observation of the keypad (R244). -/
theorem waitKeyStep_changesOnly {s t : State} (h : waitKeyStep s = .next t) :
    ChangesOnly [.v, .pc, .waiting, .prevKeys] s t := by
  rcases waitKeyStep_cases s with ⟨-, hnext⟩ | ⟨k, -, -, hnext⟩
  all_goals
    cases hnext.symm.trans h
    rfl

/-! ### The registers an instruction writes (R23) -/

theorem ne_of_namesDest {x r : Nibble} (h : (x == r) = false) : r ≠ x := (beq_eq_false_iff_ne.1 h).symm

theorem State.reg_setRegFlag_ne (s : State) {x r : Nibble} (p : Byte × Bool) (hx : r ≠ x) (hvf : r ≠ vf) :
    (s.setRegFlag x p).reg r = s.reg r := by
  rw [State.reg_setRegFlag, if_neg hvf, if_neg hx]

/-- An instruction leaves every register that it does not name as a destination and does not write as the flag. The cases
are one register, a register and the flag, the flag alone, V0 to VX, and no register at all. -/
theorem exec_reg_of_not_written {i : Instr} {s t : State} {r : Nibble} (h : exec i s = .next t)
    (hdest : namesDest i r = false) (hflag : r = vf → writesFlag i = false) : t.reg r = s.reg r := by
  cases i
  case ldImm | addImm | ldReg | orReg | andReg | xorReg | rnd | ldFromDt =>
    cases h
    exact State.reg_setReg_ne _ _ (ne_of_namesDest hdest)
  case addReg | subReg | shr | subn | shl =>
    cases h
    exact State.reg_setRegFlag_ne _ _ (ne_of_namesDest hdest) fun hr => Bool.noConfusion (hflag hr)
  case drw x y n =>
    cases h
    exact State.reg_setReg_ne _ _ fun hr => Bool.noConfusion (hflag hr)
  case load x =>
    cases h
    have hr : ¬ r.toNat < x.toNat + 1 := by
      have := of_decide_eq_false hdest
      omega
    exact (State.reg_loadRegs s (by omega) r).trans (if_neg hr)
  all_goals exact (exec_changesOnly h).reg_eq (by simp [writtenFields]) r

theorem flagByte_eq_zero_or_one (c : Bool) : flagByte c = 0#8 ∨ flagByte c = 1#8 := by
  cases c
  · exact .inl rfl
  · exact .inr rfl

/-- VF after a result and its flag is the flag, also when it is the destination (R24). -/
@[simp] theorem State.reg_vf_setRegFlag (s : State) (x : Nibble) (p : Byte × Bool) :
    (s.setRegFlag x p).reg vf = flagByte p.2 := s.setReg x p.1 |>.reg_setReg_self vf _

/-- An instruction that writes the flag writes it last, as 0 or 1. -/
theorem exec_flag {i : Instr} {s t : State} (h : exec i s = .next t) (hflag : writesFlag i = true) :
    ∃ c, t.reg vf = flagByte c := by
  cases i
  case addReg | subReg | shr | subn | shl =>
    cases h
    exact ⟨_, State.reg_vf_setRegFlag _ _ _⟩
  case drw =>
    cases h
    exact ⟨_, State.reg_setReg_self _ _ _⟩
  all_goals cases hflag

/-! ### Where an instruction leaves `pc` (R125) -/

@[simp] theorem State.storeRegs_pc (s : State) (n : Nat) : (s.storeRegs n).pc = s.pc := by
  rw [State.storeRegs_eq]

@[simp] theorem State.loadRegs_pc (s : State) (n : Nat) : (s.loadRegs n).pc = s.pc := by
  rw [State.loadRegs_eq]

theorem exec_pc_of_not_branching {i : Instr} {s t : State} (h : exec i s = .next t) (hsets : setsPc i = false)
    (hskip : skipTaken i s = none) : t.pc = s.pc + 2#16 := by
  cases i
  case jp | call | jpV0 | ret | ldKey => cases hsets
  case seImm | sneImm | seReg | sneReg | skp | sknp => cases hskip
  case bcd =>
    cases h
    rw [State.advance_pc, State.writeBytes_pc]
  case store =>
    cases h
    rw [State.advance_pc, State.storeRegs_pc]
  case load =>
    cases h
    rw [State.advance_pc, State.loadRegs_pc]
  all_goals
    cases h
    rfl

/-- A skip instruction is the skip on its condition, and writes `pc` alone. -/
theorem exec_of_skipTaken {i : Instr} {s : State} {c : Bool} (h : skipTaken i s = some c) :
    exec i s = .next (s.skipIf c) := by
  cases i
  case seImm | seReg =>
    cases h
    rfl
  case sneImm x nn =>
    cases h
    rw [exec_sneImm, bne, beq_eq_decide, decide_not]
  case sneReg x y =>
    cases h
    rw [exec_sneReg, bne, beq_eq_decide, decide_not]
  case skp x =>
    cases h
    rw [← keyPressed_eq]
    rfl
  case sknp x =>
    cases h
    rw [← keyPressed_eq]
    rfl
  all_goals cases h

/-! ### The obligations -/

/-- Settles O49: these write the registers only, and of those only the destinations and the flag. -/
theorem frameOfRegisterInstructions : Obligations.FrameOfRegisterInstructions := by
  intro x y nn s t
  refine ⟨fun i hi h => ?oneReg, fun i hi h => ?withFlag, fun h => ?random, fun h => ?block⟩
  case oneReg =>
    have hw : writtenFields i = [.pc, .v] ∧ writesFlag i = false ∧ ∀ r, namesDest i r = (x == r) := by
      fin_cases hi <;> exact ⟨rfl, rfl, fun _ => rfl⟩
    obtain ⟨hfields, hflag, hdest⟩ := hw
    exact ⟨hfields ▸ exec_keptBut h, fun r hr =>
      exec_reg_of_not_written h ((hdest r).trans (beq_false_of_ne hr.symm)) fun _ => hflag⟩
  case withFlag =>
    have hw : writtenFields i = [.pc, .v] ∧ ∀ r, namesDest i r = (x == r) := by
      fin_cases hi <;> exact ⟨rfl, fun _ => rfl⟩
    obtain ⟨hfields, hdest⟩ := hw
    exact ⟨hfields ▸ exec_keptBut h, fun r hr hvf =>
      exec_reg_of_not_written h ((hdest r).trans (beq_false_of_ne hr.symm)) fun h => absurd h hvf⟩
  case random =>
    exact ⟨exec_keptBut h, fun r hr => exec_reg_of_not_written h (beq_false_of_ne hr.symm) fun _ => rfl⟩
  case block =>
    exact ⟨exec_keptBut h, fun r hr => exec_reg_of_not_written h (decide_eq_false (by omega)) fun _ => rfl⟩

/-- Settles O50: `pc` is the one field that each of these writes. -/
theorem frameOfJumpsAndSkips : Obligations.FrameOfJumpsAndSkips := by
  intro x y nn nnn s t i hi h
  have hfields : writtenFields i = [.pc] := by fin_cases hi <;> rfl
  exact hfields ▸ exec_keptBut h

/-- Settles O51: the push writes the one slot at `sp`. -/
theorem frameOfCallAndReturn : Obligations.FrameOfCallAndReturn := by
  intro nnn s t
  refine ⟨fun h => ⟨exec_keptBut h, fun k hk => ?_⟩, fun h => exec_keptBut h⟩
  rcases execCall_cases nnn s with ⟨-, hfault⟩ | ⟨hroom, hnext⟩
  · cases hfault.symm.trans h
  · cases hnext.symm.trans h
    exact Vector.getElem_set_ne hroom _ (Ne.symm hk)

/-- Settles O52: each of these writes its own special registers alone. -/
theorem frameOfSpecialRegisterWrites : Obligations.FrameOfSpecialRegisterWrites := by
  intro x nnn s t
  refine ⟨fun i hi h => ?_, fun h => exec_keptBut h, fun h => exec_keptBut h, fun h => exec_keptBut h⟩
  have hfields : writtenFields i = [.pc, .i] := by fin_cases hi <;> rfl
  exact hfields ▸ exec_keptBut h

/-- Settles O53: a transfer leaves every byte that is at none of its addresses. -/
theorem frameOfStores : Obligations.FrameOfStores := by
  intro x s t
  refine ⟨fun h => ⟨exec_keptBut h, fun a ha => ?bcd⟩, fun h => ⟨exec_keptBut h, fun a ha => ?store⟩⟩
  case bcd =>
    cases h
    refine State.readByte_writeBytes_ne fun j hj => ?_
    rw [Nat.zero_add]
    exact ha j hj
  case store =>
    cases h
    exact (s.readByte_storeRegs (by omega)).2 a fun k hk => ha k (Nat.le_of_lt_succ hk)

/-- Settles O54: 00E0 writes no register, and DXYN only VF. -/
theorem frameOfDisplayInstructions : Obligations.FrameOfDisplayInstructions := by
  intro x y n s t
  exact ⟨fun h => exec_keptBut h, fun h => ⟨exec_keptBut h, fun r hr =>
    exec_reg_of_not_written h rfl fun hvf => absurd hvf hr⟩⟩

/-- Settles O55: the skips move `pc` by their condition, and the rest that does not branch moves it by 2. -/
theorem pcAdvancesByTwoOrFour : Obligations.PcAdvancesByTwoOrFour := by
  intro i s t h
  refine ⟨exec_pc_of_not_branching h, fun hskip => ?_, fun hskip => ?_⟩
  all_goals
    cases (exec_of_skipTaken hskip).symm.trans h
    rfl

/-- Settles O56: the flag is written as 0 or 1, and VF is else one more register. -/
theorem flagIsZeroOrOneAndElseKept : Obligations.FlagIsZeroOrOneAndElseKept := by
  intro i s t h
  refine ⟨fun hflag => ?_, fun hflag hdest => exec_reg_of_not_written h hdest fun _ => hflag⟩
  obtain ⟨c, hc⟩ := exec_flag h hflag
  rw [hc]
  exact flagByte_eq_zero_or_one c

end Sys2Proof.Machine
end

section
/-! PROOFS. The step over all instructions: the cycle (R120), which steps raise a condition (R267, R268), and which steps
write each piece of state. -/

namespace Sys2Proof.Machine

/-! ### The cycle -/

theorem step_of_waiting {s : State} (h : s.waiting = true) : step s = waitKeyStep s := by
  simp [step, h]

/-- A state has at most one instruction that its next step runs. -/
theorem State.runs_unique {s : State} {i j : Instr} (hi : s.runs i) (hj : s.runs j) : i = j :=
  Option.some.inj (hi.2.2.symm.trans hj.2.2)

/-- A RUN step that answers a next state runs an instruction, the one that its handler's answer is about. -/
theorem exec_of_step_next {s t : State} (hw : s.waiting = false) (h : step s = .next t) :
    ∃ i, s.runs i ∧ exec i s = .next t := by
  rcases step_next_cases h with ⟨hw', -⟩ | hrun
  · exact absurd (hw.symm.trans hw') Bool.false_ne_true
  · exact hrun

/-- A step answers a next state, or a condition of the fetch, of the decoder, or of the stack. -/
theorem step_outcomes (s : State) :
    (∃ t, step s = .next t) ∨ step s = .fault (.outOfBounds s.pc) ∨
      step s = .fault (.unknownOpcode s.opcodeAt s.pc) ∨ step s = .fault .stackOverflow ∨
      step s = .fault .stackUnderflow := by
  cases hw : s.waiting with
  | true =>
    rw [step_of_waiting hw]
    rcases waitKeyStep_cases s with ⟨-, hnext⟩ | ⟨k, -, -, hnext⟩
    · exact .inl ⟨_, hnext⟩
    · exact .inl ⟨_, hnext⟩
  | false =>
    rcases s.fetchInstr_cases with ⟨-, hf⟩ | ⟨-, -, hf⟩ | ⟨i, hpc, hd, -⟩
    · exact .inr (.inl (step_of_fetchInstr_error hw hf))
    · exact .inr (.inr (.inl (step_of_fetchInstr_error hw hf)))
    · rw [step_of_runs ⟨hw, hpc, hd⟩]
      rcases exec_outcomes i s with hnext | ⟨-, -, hfault⟩ | ⟨-, -, hfault⟩
      · exact .inl hnext
      · exact .inr (.inr (.inr (.inl hfault)))
      · exact .inr (.inr (.inr (.inr hfault)))

/-- Settles O7: with an instruction at `pc` a RUN step is its handler. -/
theorem stepRunsDecodedInstruction : Obligations.StepRunsDecodedInstruction :=
  fun _ _ hw hpc hd => step_of_runs ⟨hw, hpc, hd⟩

/-- Settles O8: the opcode of the statement is the one at `pc`, and the rest is the three cases of fetch and decode. -/
theorem stepFollowsTheCycle : Obligations.StepFollowsTheCycle := by
  intro s
  refine ⟨step_of_waiting, fun hw hgt => step_of_fetchInstr_error hw (State.fetchInstr_of_gt hgt), fun hw hle => ?_,
    step_outcomes s⟩
  split
  next hd => exact step_of_fetchInstr_error hw (State.fetchInstr_eq_error.2 (.inr ⟨hle, hd, rfl⟩))
  next i hd => exact step_of_runs ⟨hw, hle, hd⟩

/-! ### Conditions -/

/-- Settles O12: a condition comes from the fetch, from the decoder, or from the handler of 2NNN or 00EE. -/
theorem stepRaisesExactlyWhen : Obligations.StepRaisesExactlyWhen := by
  intro s c
  rw [step_eq_fault, State.fetchInstr_eq_error]
  constructor
  · rintro (⟨hw, hgt | ⟨hle, hunknown⟩⟩ | ⟨i, ⟨hw, hle, hd⟩, hexec⟩)
    · exact ⟨hw, .inl hgt⟩
    · exact ⟨hw, .inr ⟨hle, .inl hunknown⟩⟩
    · rcases exec_eq_fault.1 hexec with ⟨⟨nnn, rfl⟩, hfull⟩ | ⟨rfl, hempty⟩
      · exact ⟨hw, .inr ⟨hle, .inr (.inl ⟨⟨nnn, hd⟩, hfull⟩)⟩⟩
      · exact ⟨hw, .inr ⟨hle, .inr (.inr ⟨hd, hempty⟩)⟩⟩
  · rintro ⟨hw, hgt | ⟨hle, hunknown | ⟨⟨nnn, hd⟩, hfull⟩ | ⟨hd, hempty⟩⟩⟩
    · exact .inl ⟨hw, .inl hgt⟩
    · exact .inl ⟨hw, .inr ⟨hle, hunknown⟩⟩
    · exact .inr ⟨_, ⟨hw, hle, hd⟩, exec_eq_fault.2 (.inl ⟨⟨nnn, rfl⟩, hfull⟩)⟩
    · exact .inr ⟨_, ⟨hw, hle, hd⟩, exec_eq_fault.2 (.inr ⟨rfl, hempty⟩)⟩

/-- Which condition a step raises depends on the mode, `pc`, memory and `sp` alone. -/
theorem step_fault_congr {s t : State} (hw : t.waiting = s.waiting) (hpc : t.pc = s.pc) (hm : t.mem = s.mem)
    (hsp : t.sp = s.sp) (c : Fault) : step t = .fault c ↔ step s = .fault c := by
  rw [stepRaisesExactlyWhen t c, stepRaisesExactlyWhen s c, State.opcodeAt_congr hpc hm, hw, hpc, hsp]

theorem step_fault_after {s : State} {c : Fault} {o : Operation} (h : step s = .fault c) (ho : o.isLoad = false) :
    step (s.after o) = .fault c := by
  cases o with
  | load font program => cases ho
  | setKeys k => exact (step_fault_congr (s := s) (t := s.after (.setKeys k)) rfl rfl rfl rfl c).2 h
  | step => rwa [State.after_step_of_fault h]
  | tickTimers => exact (step_fault_congr (s := s) (t := s.after .tickTimers) rfl rfl rfl rfl c).2 h

/-- Settles O13: no operation but `load` writes what a condition of the step depends on; by induction over the operations. -/
theorem conditionLeavesStateAndRepeats : Obligations.ConditionLeavesStateAndRepeats := by
  intro s c os h hos
  refine ⟨State.after_step_of_fault h, ?_⟩
  induction os generalizing s with
  | nil => exact h
  | cons o os ih =>
    rw [List.forall_mem_cons] at hos
    exact ih (s.after o) (step_fault_after h hos.1) hos.2

/-! ### Which instruction a step runs when it writes a field -/

theorem keys_not_mem_writtenFields (i : Instr) : .keys ∉ writtenFields i := by
  cases i <;> simp [writtenFields]

section
variable {s : State} {i : Instr} (hruns : s.runs i)
include hruns

theorem runs_of_mem_written (h : .mem ∈ writtenFields i) : ∃ x, s.runs (.bcd x) ∨ s.runs (.store x) := by
  cases i
  case bcd x => exact ⟨x, .inl hruns⟩
  case store x => exact ⟨x, .inr hruns⟩
  all_goals simp [writtenFields] at h

theorem runs_of_disp_written (h : .disp ∈ writtenFields i) : s.runs .cls ∨ ∃ x y n, s.runs (.drw x y n) := by
  cases i
  case cls => exact .inl hruns
  case drw x y n => exact .inr ⟨x, y, n, hruns⟩
  all_goals simp [writtenFields] at h

theorem runs_of_stack_written (h : .stack ∈ writtenFields i) : ∃ nnn, s.runs (.call nnn) := by
  cases i
  case call nnn => exact ⟨nnn, hruns⟩
  all_goals simp [writtenFields] at h

theorem runs_of_sp_written (h : .sp ∈ writtenFields i) : s.runs .ret ∨ ∃ nnn, s.runs (.call nnn) := by
  cases i
  case ret => exact .inl hruns
  case call nnn => exact .inr ⟨nnn, hruns⟩
  all_goals simp [writtenFields] at h

theorem runs_of_i_written (h : .i ∈ writtenFields i) :
    (∃ nnn, s.runs (.ldI nnn)) ∨ ∃ x, s.runs (.addI x) ∨ s.runs (.ldFont x) := by
  cases i
  case ldI nnn => exact .inl ⟨nnn, hruns⟩
  case addI x => exact .inr ⟨x, .inl hruns⟩
  case ldFont x => exact .inr ⟨x, .inr hruns⟩
  all_goals simp [writtenFields] at h

theorem runs_of_dt_written (h : .dt ∈ writtenFields i) : ∃ x, s.runs (.ldDt x) := by
  cases i
  case ldDt x => exact ⟨x, hruns⟩
  all_goals simp [writtenFields] at h

theorem runs_of_st_written (h : .st ∈ writtenFields i) : ∃ x, s.runs (.ldSt x) := by
  cases i
  case ldSt x => exact ⟨x, hruns⟩
  all_goals simp [writtenFields] at h

/-- FX0A alone writes the mode and its latches. -/
theorem runs_of_wait_written
    (h : .waiting ∈ writtenFields i ∨ .waitX ∈ writtenFields i ∨ .prevKeys ∈ writtenFields i) :
    ∃ x, s.runs (.ldKey x) := by
  cases i
  case ldKey x => exact ⟨x, hruns⟩
  all_goals simp [writtenFields] at h

theorem runs_of_draws_written (h : .draws ∈ writtenFields i) : ∃ x nn, s.runs (.rnd x nn) := by
  cases i
  case rnd x nn => exact ⟨x, nn, hruns⟩
  all_goals simp [writtenFields] at h

end

theorem exec_keeps_or_writes {i : Instr} {s t : State} (h : exec i s = .next t) (f : Field) :
    f.same s t ∨ f ∈ writtenFields i :=
  or_iff_not_imp_right.2 (exec_keptBut h f)

theorem exec_keeps_mem_or_writes {i : Instr} {s t : State} (h : exec i s = .next t) :
    t.mem = s.mem ∨ .mem ∈ writtenFields i :=
  or_iff_not_imp_right.2 (exec_changesOnly h).mem_eq

/-- A WAIT_KEY step leaves every register but V[`wait_x`]. -/
theorem waitKeyStep_reg {s t : State} (h : waitKeyStep s = .next t) {r : Nibble} (hr : r ≠ s.waitX) :
    t.reg r = s.reg r := by
  rcases waitKeyStep_cases s with ⟨-, hnext⟩ | ⟨k, -, -, hnext⟩
  · cases hnext.symm.trans h
    rfl
  · cases hnext.symm.trans h
    exact State.reg_setReg_ne _ _ hr

/-- Settles O57: a WAIT_KEY step writes its own fields, and a RUN step those of the instruction it runs. -/
theorem stateIsWrittenOnlyByItsInstructions : Obligations.StateIsWrittenOnlyByItsInstructions := by
  intro s t h
  rcases step_next_cases h with ⟨hw, hwait⟩ | ⟨i, hruns, hexec⟩
  · have hchg := waitKeyStep_changesOnly hwait
    have hkept := hchg.keptBut
    refine ⟨hkept .keys (by decide), .inl (hchg.mem_eq (by decide)), .inl (hkept .disp (by decide)),
      .inl (hkept .stack (by decide)), .inl (hkept .sp (by decide)), .inl (hkept .i (by decide)),
      .inl (hkept .dt (by decide)), .inl (hkept .st (by decide)), .inl (hkept .waitX (by decide)),
      .inr (.inl hw), .inr (.inl hw), fun r => ?_, .inl (hkept .draws (by decide))⟩
    by_cases hr : r = s.waitX
    · exact .inr (.inl ⟨hw, hr⟩)
    · exact .inl (waitKeyStep_reg hwait hr)
  · have hor := exec_keeps_or_writes hexec
    refine ⟨exec_keptBut hexec .keys (keys_not_mem_writtenFields i),
      (exec_keeps_mem_or_writes hexec).imp_right (runs_of_mem_written hruns),
      (hor .disp).imp_right (runs_of_disp_written hruns),
      (hor .stack).imp_right (runs_of_stack_written hruns),
      (hor .sp).imp_right (runs_of_sp_written hruns),
      (hor .i).imp_right (runs_of_i_written hruns),
      (hor .dt).imp_right (runs_of_dt_written hruns),
      (hor .st).imp_right (runs_of_st_written hruns),
      (hor .waitX).imp_right fun hf => runs_of_wait_written hruns (.inr (.inl hf)),
      (hor .waiting).imp_right fun hf => .inr (runs_of_wait_written hruns (.inl hf)),
      (hor .prevKeys).imp_right fun hf => .inr (runs_of_wait_written hruns (.inr (.inr hf))), fun r => ?_,
      (hor .draws).imp_right (runs_of_draws_written hruns)⟩
    by_cases hwritten : namesDest i r = true ∨ (r = vf ∧ writesFlag i = true)
    · exact .inr (.inr ⟨i, hruns, hwritten⟩)
    · obtain ⟨hdest, hflag⟩ := not_or.1 hwritten
      exact .inl (exec_reg_of_not_written hexec (Bool.eq_false_of_not_eq_true hdest) fun hr =>
        Bool.eq_false_of_not_eq_true fun hf => hflag ⟨hr, hf⟩)

end Sys2Proof.Machine
end

section
/-! PROOFS. The mode (R121, R243, R244): how FX0A enters WAIT_KEY mode and how a new key leaves it. -/

namespace Sys2Proof.Machine

theorem exec_ldKey (x : Nibble) (s : State) :
    exec (.ldKey x) s = .next { s with waiting := true, waitX := x, prevKeys := s.keys } := rfl

/-- In RUN mode an instruction enters WAIT_KEY mode exactly when it is FX0A. -/
theorem exec_waiting_iff {i : Instr} {s t : State} (hruns : s.runs i) (h : exec i s = .next t) :
    t.waiting = true ↔ ∃ x, s.runs (.ldKey x) := by
  constructor
  · intro ht
    rcases exec_keeps_or_writes h .waiting with hkept | hwritten
    · exact absurd (hruns.1.symm.trans (hkept.symm.trans ht)) Bool.false_ne_true
    · exact runs_of_wait_written hruns (.inl hwritten)
  · rintro ⟨x, hx⟩
    cases State.runs_unique hruns hx
    cases (exec_ldKey x s).symm.trans h
    rfl

/-- A WAIT_KEY step returns to RUN mode exactly when a key is newly pressed. -/
theorem waitKeyStep_waiting_iff {s t : State} (hw : s.waiting = true) (h : waitKeyStep s = .next t) :
    t.waiting = false ↔ newKeys s.keys s.prevKeys ≠ 0#16 := by
  rcases waitKeyStep_cases s with ⟨hnone, hnext⟩ | ⟨k, hk, -, hnext⟩
  · cases hnext.symm.trans h
    simp [hw, hnone]
  · cases hnext.symm.trans h
    refine iff_of_true rfl fun hzero => ?_
    simp [hzero] at hk

theorem State.after_of_fault {s : State} {o : Operation} {c : Fault} (h : perform o s = .fault c) : s.after o = s := by
  simp [State.after, h]

/-- Settles O14: each operation by itself; a step is a WAIT_KEY step or runs an instruction. -/
theorem modeTransitions : Obligations.ModeTransitions := by
  intro s o
  refine ⟨fun t h => ⟨fun hload => ?load, fun ho hw => ?run, fun ho hw => ?wait, fun ho => ?host⟩, fun c h => ?fault⟩
  case load =>
    cases o with
    | load font program =>
      rcases load_cases font program s with ⟨-, hfault⟩ | ⟨-, hnext⟩
      · cases hfault.symm.trans h
      · cases hnext.symm.trans h
        rfl
    | _ => cases hload
  case run =>
    subst ho
    obtain ⟨i, hruns, hexec⟩ := exec_of_step_next hw h
    exact exec_waiting_iff hruns hexec
  case wait =>
    subst ho
    exact waitKeyStep_waiting_iff hw ((step_of_waiting hw).symm.trans h)
  case host =>
    rcases ho with rfl | ⟨k, rfl⟩
    all_goals
      cases h
      rfl
  case fault => rw [State.after_of_fault h]

theorem newKeys_getLsbD {keys prevKeys : Word} (k : Nibble) :
    (newKeys keys prevKeys).getLsbD k.toNat = true ↔
      keys.getLsbD k.toNat = true ∧ prevKeys.getLsbD k.toNat = false := by
  have hk := k.isLt
  simp [newKeys, hk]

/-- Settles O15: the step takes the lowest of the keys that went down, and writes it as a byte. -/
theorem waitKeyStepTakesLowestNewKey : Obligations.WaitKeyStepTakesLowestNewKey := by
  intro s hw
  rw [step_of_waiting hw]
  rcases waitKeyStep_cases s with ⟨hnone, hnext⟩ | ⟨k, hk, hlowest, hnext⟩
  · exact ⟨fun _ => hnext, fun hnew => absurd hnone hnew⟩
  · obtain ⟨hdown, hup⟩ := (newKeys_getLsbD k).1 hk
    refine ⟨fun hnone => ?none, fun _ => ⟨_, k.toNat, hnext, k.isLt, hdown, hup, fun j hj => ?lower, ?value,
      fun r hr => waitKeyStep_reg hnext hr, rfl, rfl, rfl, (waitKeyStep_changesOnly hnext).keptBut⟩⟩
    case none =>
      rw [newKeys, hnone] at hk
      simp at hk
    case lower =>
      have hjk : (BitVec.ofNat 4 j).toNat = j := Nat.mod_eq_of_lt (hj.trans k.isLt)
      by_contra hno
      rw [not_or, Bool.not_eq_false, Bool.not_eq_true] at hno
      have hle := hlowest (BitVec.ofNat 4 j) ((newKeys_getLsbD _).2 (by rwa [hjk]))
      omega
    case value =>
      rw [State.advance_reg, State.reg_setReg_self]
      exact BitVec.toNat_setWidth_of_le (by decide)

/-- Settles O48: the snapshot is the keypad, and FX0A writes nothing but the mode and its latches. -/
theorem waitForKeyEntersTheMode : Obligations.WaitForKeyEntersTheMode := by
  intro x s
  exact ⟨decode_encode (.ldKey x), _, exec_ldKey x s, rfl, rfl, rfl, rfl, fun _ => rfl⟩

end Sys2Proof.Machine
end

section
/-! PROOFS. The invariant (R38): each of its parts is kept by every instruction, and so by every operation. -/

namespace Sys2Proof.Machine

/-! ### The instructions that write a part of it -/

theorem exec_jpV0 (nnn : Addr) (s : State) :
    exec (.jpV0 nnn) s = .next (s.setPc (jumpV0Target Config.jumpV0Mask nnn (s.reg 0#4))) := rfl

theorem exec_addI (x : Nibble) (s : State) :
    exec (.addI x) s = .next (s.setI ((s.i + (s.reg x).toWord) &&& 0x0FFF#16)).advance := rfl

theorem exec_ldFont (x : Nibble) (s : State) :
    exec (.ldFont x) s = .next (s.setI (fontAddr Config.fontDigitMode (s.reg x))).advance := rfl

theorem exec_store (x : Nibble) (s : State) : exec (.store x) s = .next (s.storeRegs (x.toNat + 1)).advance := rfl

theorem toWord_toNat (a : Addr) : a.toWord.toNat = a.toNat := BitVec.toNat_setWidth_of_le (by decide)

theorem addI_toNat (i : Word) (b : Byte) : ((i + b.toWord) &&& 0x0FFF#16).toNat = (i.toNat + b.toNat) % 4096 := by
  have hb : b.toWord.toNat = b.toNat := BitVec.toNat_setWidth_of_le (by decide)
  rw [BitVec.toNat_and, BitVec.toNat_add, hb]
  exact (Nat.and_two_pow_sub_one_eq_mod _ 12).trans (Nat.mod_mod_of_dvd _ (by decide))

theorem pc_add_toNat {pc : Word} (h : pc.toNat ≤ 0x0FFE) :
    (pc + 2#16).toNat = pc.toNat + 2 ∧ (pc + 4#16).toNat = pc.toNat + 4 := by
  constructor <;> bv_omega

/-! ### Each part is kept -/

theorem exec_keeps_i_le {i : Instr} {s t : State} (hi : s.i.toNat ≤ 0x0FFF) (h : exec i s = .next t) :
    t.i.toNat ≤ 0x0FFF := by
  cases i
  case ldI nnn =>
    cases (exec_ldI nnn s).symm.trans h
    have := nnn.isLt
    rw [State.advance_i, State.setI_i, toWord_toNat]
    omega
  case addI x =>
    cases (exec_addI x s).symm.trans h
    rw [State.advance_i, State.setI_i, addI_toNat]
    omega
  case ldFont x =>
    cases (exec_ldFont x s).symm.trans h
    have := (s.reg x).isLt
    rw [State.advance_i, State.setI_i, fontAddr_toNat]
    omega
  all_goals
    have hkept : t.i = s.i := exec_keptBut h .i (by simp [writtenFields])
    rwa [hkept]

/-- The targets of the instructions that set `pc`: the largest is that of BNNN, 0xFFF + 0xFF. -/
theorem exec_pc_le {i : Instr} {s t : State} (hpc : s.pc.toNat ≤ 0x0FFE)
    (hstack : ∀ k : Fin 16, s.stack[k].toNat ≤ 0x1000) (h : exec i s = .next t) : t.pc.toNat ≤ 0x10FE := by
  obtain ⟨h2, h4⟩ := pc_add_toNat hpc
  cases hskip : skipTaken i s with
  | some c =>
    cases (exec_of_skipTaken hskip).symm.trans h
    rw [State.skipIf_pc]
    split <;> omega
  | none =>
    cases i
    case jp nnn =>
      cases (exec_jp nnn s).symm.trans h
      have := nnn.isLt
      rw [State.setPc_pc, toWord_toNat]
      omega
    case jpV0 nnn =>
      cases (exec_jpV0 nnn s).symm.trans h
      have := nnn.isLt
      have := (s.reg 0#4).isLt
      rw [State.setPc_pc, jumpV0Target_toNat]
      omega
    case call nnn =>
      rcases execCall_cases nnn s with ⟨-, hfault⟩ | ⟨_, hnext⟩
      · cases hfault.symm.trans h
      · cases hnext.symm.trans h
        have := nnn.isLt
        have := toWord_toNat nnn
        simp only
        omega
    case ret =>
      rcases execRet_cases s with ⟨-, hfault⟩ | ⟨hpos, hnext⟩
      · cases hfault.symm.trans h
      · cases hnext.symm.trans h
        have hsp := s.sp.isLt
        exact (hstack ⟨s.sp.val - 1, by omega⟩).trans (by decide)
    case ldKey x =>
      cases (exec_ldKey x s).symm.trans h
      exact hpc.trans (by decide)
    all_goals
      rw [exec_pc_of_not_branching h rfl hskip]
      omega

theorem exec_keeps_stack_le {i : Instr} {s t : State} (hpc : s.pc.toNat ≤ 0x0FFE)
    (hstack : ∀ k : Fin 16, s.stack[k].toNat ≤ 0x1000) (h : exec i s = .next t) (k : Fin 16) :
    t.stack[k].toNat ≤ 0x1000 := by
  cases i
  case call nnn =>
    rcases execCall_cases nnn s with ⟨-, hfault⟩ | ⟨hroom, hnext⟩
    · cases hfault.symm.trans h
    · cases hnext.symm.trans h
      have hpush := (pc_add_toNat hpc).1
      simp only [Fin.getElem_fin, Vector.getElem_set]
      split
      · omega
      · exact hstack k
  all_goals
    have hkept : t.stack = s.stack := exec_keptBut h .stack (by simp [writtenFields])
    rw [hkept]
    exact hstack k

theorem exec_keeps_mem_wf {i : Instr} {s t : State} (hm : s.mem.wf) (h : exec i s = .next t) : t.mem.wf := by
  cases i
  case bcd x =>
    cases (exec_bcd x s).symm.trans h
    exact State.wf_writeBytes hm _ _
  case store x =>
    cases (exec_store x s).symm.trans h
    exact State.wf_storeRegs hm _
  all_goals
    rw [(exec_changesOnly h).mem_eq (by simp [writtenFields])]
    exact hm

/-! ### Steps -/

theorem exec_keeps_inv {i : Instr} {s t : State} (hinv : s.Inv) (hruns : s.runs i) (h : exec i s = .next t) : t.Inv := by
  obtain ⟨hi, -, hstack, hmem, -⟩ := hinv
  have hpc : s.pc.toNat ≤ 0x0FFE := hruns.2.1
  refine ⟨exec_keeps_i_le hi h, exec_pc_le hpc hstack h, exec_keeps_stack_le hpc hstack h, exec_keeps_mem_wf hmem h,
    fun ht => ?_⟩
  obtain ⟨x, hx⟩ := (exec_waiting_iff hruns h).1 ht
  cases State.runs_unique hruns hx
  cases (exec_ldKey x s).symm.trans h
  exact ⟨hpc, State.fetchInstr_eq_ok.2 hruns.2⟩

theorem waitKeyStep_keeps_inv {s t : State} (hinv : s.Inv) (hw : s.waiting = true) (h : waitKeyStep s = .next t) :
    t.Inv := by
  obtain ⟨hi, hpc, hstack, hmem, hwait⟩ := hinv
  rcases waitKeyStep_cases s with ⟨-, hnext⟩ | ⟨k, -, -, hnext⟩
  · cases hnext.symm.trans h
    exact ⟨hi, hpc, hstack, hmem, hwait⟩
  · cases hnext.symm.trans h
    have hle := (hwait hw).1
    have hnew := (pc_add_toNat hle).1
    have hpc' : (s.pc + 2#16).toNat ≤ 0x10FE := by omega
    exact ⟨hi, hpc', hstack, hmem, fun hfalse => Bool.noConfusion hfalse⟩

theorem step_keeps_inv {s t : State} (hinv : s.Inv) (h : step s = .next t) : t.Inv := by
  rcases step_next_cases h with ⟨hw, hwait⟩ | ⟨i, hruns, hexec⟩
  · exact waitKeyStep_keeps_inv hinv hw hwait
  · exact exec_keeps_inv hinv hruns hexec

/-! ### The host's operations -/

theorem reset_inv : State.reset.Inv := by decide

/-- Memory apart, a load leaves the reset state. -/
theorem load_inv {font : Font} {program : List Byte} {s t : State} (h : load font program s = .next t) : t.Inv := by
  rcases load_cases font program s with ⟨-, hfault⟩ | ⟨hle, hnext⟩
  · cases hfault.symm.trans h
  · cases hnext.symm.trans h
    obtain ⟨hi, hpc, hstack, -, -⟩ := reset_inv
    exact ⟨hi, hpc, hstack, wf_loaded font hle, fun hfalse => Bool.noConfusion hfalse⟩

theorem perform_keeps_inv {o : Operation} {s t : State} (hinv : s.Inv) (h : perform o s = .next t) : t.Inv := by
  cases o with
  | load font program => exact load_inv h
  | step => exact step_keeps_inv hinv h
  | setKeys k =>
    cases h
    exact hinv
  | tickTimers =>
    cases h
    exact hinv

/-! ### The obligations -/

/-- Settles O16: the reset state is one closed state. -/
theorem resetMeetsTheInvariant : Obligations.ResetMeetsTheInvariant := reset_inv

/-- Settles O17: every instruction keeps each part of the invariant, and the WAIT_KEY step moves on from an FX0A, whose
address is in the range of a fetch. -/
theorem stepKeepsTheInvariant : Obligations.StepKeepsTheInvariant := fun _ _ => step_keeps_inv

/-- Settles O18: every operation keeps the invariant; by induction over the operations. -/
theorem operationsKeepTheInvariant : Obligations.OperationsKeepTheInvariant := by
  refine ⟨fun _ _ _ _ => load_inv, fun os => ?_⟩
  induction os with
  | nil =>
    intro s t hinv h
    cases h
    exact hinv
  | cons o os ih =>
    intro s t hinv h
    unfold performAll at h
    split at h
    next u hu => exact ih u t (perform_keeps_inv hinv hu) h
    all_goals cases h

end Sys2Proof.Machine
end

section
/-! PROOFS. The host's operations (R300, R36, R248): what `load` leaves in memory and in every other field. -/

namespace Sys2Proof.Machine

theorem Memory.image_replicate_zero (a n : Nat) : Memory.image a (List.replicate n 0#8) = [] := by
  induction n generalizing a with
  | zero => rfl
  | succ n ih => exact ih (a + 1)

/-- A byte after `load`: the font's from 0x050, the program's from 0x200, and 0x00 elsewhere. -/
theorem read_loaded (font : Font) (program : List Byte) (a : Nat) :
    Memory.read (Memory.image 0x050 font.toList ++ Memory.image 0x200 program) a =
      if 0x050 ≤ a ∧ a ≤ 0x09F then font.toList.getD (a - 0x050) 0#8
      else if 0x200 ≤ a then program.getD (a - 0x200) 0#8 else 0#8 := by
  have hfont : font.toList.length = 80 := by simp
  rw [Memory.read_append fun c hc _ => (Memory.mem_image hc).2.2, Memory.read_image, Memory.read_image]
  by_cases hin : 0x050 ≤ a ∧ a ≤ 0x09F
  · rw [if_pos hin.1, if_pos hin, if_neg (by omega : ¬ 0x200 ≤ a)]
    split
    next hzero => exact hzero.symm
    next => rfl
  · have hzero : (if 0x050 ≤ a then font.toList.getD (a - 0x050) 0#8 else 0#8) = 0#8 := by
      split
      next hle => exact List.getD_eq_default _ _ (by omega)
      next => rfl
    rw [if_pos hzero, if_neg hin]

theorem reset_reg (r : Nibble) : State.reset.reg r = 0#8 := Vector.getElem_replicate r.isLt

theorem reset_stack (k : Fin 16) : State.reset.stack[k] = 0#16 := Vector.getElem_replicate k.isLt

/-- Settles O19: memory is the two images, and every other field is that of the reset state. -/
theorem loadLeavesTheResetState : Obligations.LoadLeavesTheResetState := by
  intro font program s hle
  rcases load_cases font program s with ⟨hgt, -⟩ | ⟨-, hnext⟩
  · omega
  · exact ⟨_, hnext, fun a => read_loaded font program a.toNat, reset_reg, rfl, rfl, rfl, reset_stack,
      Display.pixel_clear, rfl, rfl, rfl, rfl, rfl, rfl⟩

/-- Settles O21: the image of zero bytes lists nothing. -/
theorem resetIsLoadOfNothing : Obligations.ResetIsLoadOfNothing := by
  intro s hdraws
  have hfont : Memory.image 0x050 (Vector.replicate 80 0#8).toList = [] := by
    rw [Vector.toList_replicate, Memory.image_replicate_zero]
  rcases load_cases (Vector.replicate 80 0#8) [] s with ⟨hgt, -⟩ | ⟨-, hnext⟩
  · exact absurd hgt (by decide)
  · refine hnext.trans ?_
    rw [hfont, hdraws]
    rfl

/-- Settles O22: `set_keys` writes one field. -/
theorem setKeysWritesTheKeypad : Obligations.SetKeysWritesTheKeypad :=
  fun k s => ⟨setKeys k s, rfl, rfl, ChangesOnly.keptBut (fs := [.keys]) rfl⟩

end Sys2Proof.Machine
end

section
/-! PROOFS. The stack, BNNN and the keypad skips (R150, R152, R153, R240, R241): their opcodes, and where they leave `pc`. -/

namespace Sys2Proof.Machine

theorem exec_skp (x : Nibble) (s : State) :
    exec (.skp x) s = .next (s.skipIf (keyPressed Config.keyIndexMode s.keys (s.reg x))) := rfl

theorem exec_sknp (x : Nibble) (s : State) :
    exec (.sknp x) s = .next (s.skipIf (!keyPressed Config.keyIndexMode s.keys (s.reg x))) := rfl

/-- 2NNN with room on the stack (R152). -/
theorem exec_call_of_lt {s : State} (nnn : Addr) (h : s.sp.val < 16) :
    exec (.call nnn) s = .next { s with
      pc := nnn.toWord, stack := s.stack.set s.sp.val (s.pc + 2#16), sp := ⟨s.sp.val + 1, by omega⟩ } := by
  rcases execCall_cases nnn s with ⟨hfull, -⟩ | ⟨_, hnext⟩
  · omega
  · exact hnext

/-- 00EE with an entry on the stack (R150). -/
theorem exec_ret_of_pos {s : State} (h : 0 < s.sp.val) :
    exec .ret s = .next { s with pc := s.stack[s.sp.val - 1], sp := ⟨s.sp.val - 1, by omega⟩ } := by
  rcases execRet_cases s with ⟨hempty, -⟩ | ⟨_, hnext⟩
  · omega
  · exact hnext

/-- Settles O24: the push writes the slot at `sp`, and the pop reads the slot below it. -/
theorem callPushesAndReturnPops : Obligations.CallPushesAndReturnPops := by
  refine ⟨fun nnn => decode_encode (.call nnn), decode_encode .ret, fun nnn s hroom => ?call, fun s hpos => ?ret⟩
  case call =>
    refine ⟨_, exec_call_of_lt nnn hroom, toWord_toNat nnn, rfl, fun k => ?_⟩
    simp only [Fin.getElem_fin, Vector.getElem_set, eq_comm]
  case ret =>
    refine ⟨_, exec_ret_of_pos hpos, Nat.sub_add_cancel hpos, rfl, fun k hk => ?_⟩
    simp only [← hk, Nat.add_sub_cancel, Fin.getElem_fin]

/-- Settles O25: the slot that the return reads is the one that the call wrote. -/
theorem returnUndoesCall : Obligations.ReturnUndoesCall := by
  intro nnn s t u h hsp hstack
  rcases execCall_cases nnn s with ⟨-, hfault⟩ | ⟨hroom, hnext⟩
  · cases hfault.symm.trans h
  · cases hnext.symm.trans h
    have hval : u.sp.val = s.sp.val + 1 := congrArg Fin.val hsp
    refine ⟨_, exec_ret_of_pos (by omega), ?pc, Fin.ext ?sp⟩
    case pc => simp only [hstack, hval, Nat.add_sub_cancel, Vector.getElem_set_self]
    case sp => simp only [hval, Nat.add_sub_cancel]

/-- Settles O27: the sum of a 12-bit and an 8-bit number fits in `pc`. -/
theorem jumpV0AddsWithoutMask : Obligations.JumpV0AddsWithoutMask := fun nnn s =>
  ⟨decode_encode (.jpV0 nnn), _, exec_jpV0 nnn s, jumpV0Target_toNat nnn (s.reg 0#4), rfl⟩

/-- Settles O30: both skips test the key of the low nibble, with opposite outcomes. -/
theorem skipsOnKeys : Obligations.SkipsOnKeys := by
  intro x s
  refine ⟨decode_encode (.skp x), decode_encode (.sknp x), ?pressed, ?released⟩
  case pressed => exact ⟨_, exec_skp x s, rfl, s.skipIf_pc_of_iff (by rw [keyPressed_eq])⟩
  case released =>
    refine ⟨_, exec_sknp x s, rfl, s.skipIf_pc_of_iff ?_⟩
    rw [keyPressed_eq, Bool.not_eq_true']

end Sys2Proof.Machine
end

section
/-! PROOFS. Logic, arithmetic, shifts and the random byte (R173 to R184): the result and the flag that each writes. -/

namespace Sys2Proof.Machine

/-! ### The meanings as writes of a register, or of a register and the flag -/

theorem exec_orReg (x y : Nibble) (s : State) :
    exec (.orReg x y) s = .next (s.setReg x (s.reg x ||| s.reg y)).advance := rfl

theorem exec_andReg (x y : Nibble) (s : State) :
    exec (.andReg x y) s = .next (s.setReg x (s.reg x &&& s.reg y)).advance := rfl

theorem exec_xorReg (x y : Nibble) (s : State) :
    exec (.xorReg x y) s = .next (s.setReg x (s.reg x ^^^ s.reg y)).advance := rfl

theorem exec_addReg (x y : Nibble) (s : State) :
    exec (.addReg x y) s = .next (s.setRegFlag x (addFlag (s.reg x) (s.reg y))).advance := rfl

theorem exec_subReg (x y : Nibble) (s : State) :
    exec (.subReg x y) s = .next (s.setRegFlag x (subFlag (s.reg x) (s.reg y))).advance := rfl

theorem exec_subn (x y : Nibble) (s : State) :
    exec (.subn x y) s = .next (s.setRegFlag x (subFlag (s.reg y) (s.reg x))).advance := rfl

theorem exec_shr (x y : Nibble) (s : State) :
    exec (.shr x y) s = .next (s.setRegFlag x (shrFlag (s.reg x))).advance := rfl

theorem exec_shl (x y : Nibble) (s : State) :
    exec (.shl x y) s = .next (s.setRegFlag x (shlFlag (s.reg x))).advance := rfl

theorem exec_rnd (x : Nibble) (nn : Byte) (s : State) :
    exec (.rnd x nn) s =
      .next ({ s with draws := s.draws + 1 }.setReg x (Config.randByte s.draws &&& nn)).advance := rfl

/-! ### Results and flags as numbers -/

/-- The destination of a result and its flag holds the result, unless it is VF (R24). -/
theorem State.reg_setRegFlag_self (s : State) {x : Nibble} (p : Byte × Bool) (hx : x ≠ vf) :
    (s.setRegFlag x p).reg x = p.1 := by
  rw [State.reg_setRegFlag, if_neg hx, if_pos rfl]

theorem flagByte_decide (p : Prop) [Decidable p] : flagByte (decide p) = if p then 1#8 else 0#8 := by
  simp only [flagByte, decide_eq_true_eq]

theorem addFlag_fst_toNat (a b : Byte) : (addFlag a b).1.toNat = (a.toNat + b.toNat) % 256 := BitVec.toNat_ofNat _ _

theorem subFlag_fst_toNat (a b : Byte) : (subFlag a b).1.toNat = (a.toNat + 256 - b.toNat) % 256 :=
  BitVec.toNat_ofNat _ _

theorem shrFlag_fst_toNat (a : Byte) : (shrFlag a).1.toNat = a.toNat / 2 := by
  rw [shrFlag, BitVec.toNat_ushiftRight, Nat.shiftRight_eq_div_pow, pow_one]

theorem shlFlag_fst_toNat (a : Byte) : (shlFlag a).1.toNat = a.toNat * 2 % 256 := by
  rw [shlFlag, BitVec.toNat_shiftLeft, Nat.shiftLeft_eq, pow_one]

/-- The bit shifted out to the right is the lowest. -/
theorem flagByte_shrFlag_toNat (a : Byte) : (flagByte (shrFlag a).2).toNat = a.toNat % 2 := by
  have hbit : (shrFlag a).2 = decide (a.toNat % 2 = 1) := Nat.testBit_zero _
  rw [hbit, flagByte_decide]
  split <;> simp <;> omega

/-- The bit shifted out to the left is the highest. -/
theorem flagByte_shlFlag_toNat (a : Byte) : (flagByte (shlFlag a).2).toNat = a.toNat / 128 := by
  have ha := a.isLt
  have hbit : (shlFlag a).2 = decide (a.toNat / 2 ^ 7 % 2 = 1) := Nat.testBit_eq_decide_div_mod_eq
  rw [hbit, flagByte_decide]
  split <;> simp <;> omega

/-! ### The obligations -/

/-- Settles O33: each form writes VX alone, bit by bit. -/
theorem logicForms : Obligations.LogicForms := by
  intro x y s
  refine ⟨decode_encode (.orReg x y), decode_encode (.andReg x y), decode_encode (.xorReg x y), ?or, ?and, ?xor⟩
  case or =>
    refine ⟨_, exec_orReg x y s, rfl, s.reg_vf_setReg_advance _, fun b => ?_⟩
    rw [State.advance_reg, State.reg_setReg_self, BitVec.getLsbD_or]
  case and =>
    refine ⟨_, exec_andReg x y s, rfl, s.reg_vf_setReg_advance _, fun b => ?_⟩
    rw [State.advance_reg, State.reg_setReg_self, BitVec.getLsbD_and]
  case xor =>
    refine ⟨_, exec_xorReg x y s, rfl, s.reg_vf_setReg_advance _, fun b => ?_⟩
    rw [State.advance_reg, State.reg_setReg_self, BitVec.getLsbD_xor]

/-- Settles O34: the flag is the carry of the old values, and is written last. -/
theorem addSetsCarry : Obligations.AddSetsCarry := by
  intro x y s
  refine ⟨decode_encode (.addReg x y), _, exec_addReg x y s, rfl, fun hx => ?sum, ?carry⟩
  case sum => rw [State.advance_reg, State.reg_setRegFlag_self _ _ hx, addFlag_fst_toNat]
  case carry => exact (State.reg_vf_setRegFlag s x _).trans (flagByte_decide _)

/-- Result, flag and other registers after `a - b` into VX; 8XY5 and 8XY7 differ in the order of the operands. -/
theorem setRegFlag_subFlag (s : State) (x : Nibble) (a b : Byte) :
    (x ≠ vf → ((s.setRegFlag x (subFlag a b)).reg x).toNat = (a.toNat + 256 - b.toNat) % 256) ∧
      ((s.setRegFlag x (subFlag a b)).reg vf = if b.toNat ≤ a.toNat then 1#8 else 0#8) ∧
      ∀ y, y ≠ x → y ≠ vf → (s.setRegFlag x (subFlag a b)).reg y = s.reg y := by
  refine ⟨fun hx => ?_, ?_, fun y hx hvf => s.reg_setRegFlag_ne _ hx hvf⟩
  · rw [State.reg_setRegFlag_self _ _ hx, subFlag_fst_toNat]
  · exact (State.reg_vf_setRegFlag s x _).trans (flagByte_decide _)

/-- Settles O35: one subtraction, with the operands in either order. -/
theorem subtractsSetNoBorrow : Obligations.SubtractsSetNoBorrow := by
  intro x y s
  refine ⟨decode_encode (.subReg x y), decode_encode (.subn x y), ?sub, ?subn⟩
  case sub =>
    obtain ⟨hres, hflag, hother⟩ := setRegFlag_subFlag s x (s.reg x) (s.reg y)
    exact ⟨_, exec_subReg x y s, rfl, hres, hflag, hother y⟩
  case subn =>
    obtain ⟨hres, hflag, hother⟩ := setRegFlag_subFlag s x (s.reg y) (s.reg x)
    exact ⟨_, exec_subn x y s, rfl, hres, hflag, hother y⟩

/-- Settles O36: the flag is a bit of the old VX, and is written last. -/
theorem shiftsKeepTheBitShiftedOut : Obligations.ShiftsKeepTheBitShiftedOut := by
  intro x y s
  refine ⟨decode_encode (.shr x y), decode_encode (.shl x y), ?right, ?left⟩
  case right =>
    refine ⟨_, exec_shr x y s, rfl, fun hx => ?_, ?_⟩
    · rw [State.advance_reg, State.reg_setRegFlag_self _ _ hx, shrFlag_fst_toNat]
    · rw [State.advance_reg, State.reg_vf_setRegFlag, flagByte_shrFlag_toNat]
  case left =>
    refine ⟨_, exec_shl x y s, rfl, fun hx => ?_, ?_⟩
    · rw [State.advance_reg, State.reg_setRegFlag_self _ _ hx, shlFlag_fst_toNat]
    · rw [State.advance_reg, State.reg_vf_setRegFlag, flagByte_shlFlag_toNat]

/-- Settles O37: whatever the random byte is, the AND with NN clears the bits that NN lacks. -/
theorem randomIsMasked : Obligations.RandomIsMasked := by
  intro x nn s
  refine ⟨decode_encode (.rnd x nn), _, exec_rnd x nn s, rfl, rfl, State.reg_setReg_self _ _ _, ?masked,
    State.reg_vf_setReg_advance _ _⟩
  rw [State.advance_reg, State.reg_setReg_self, BitVec.and_assoc, BitVec.and_not_self]
  exact BitVec.and_zero

end Sys2Proof.Machine
end

section
/-! PROOFS. FX1E, FX29 and the block transfers (R201, R202, R204, R205): the value of `I`, and what the transfers move. -/

namespace Sys2Proof.Machine

theorem exec_load (x : Nibble) (s : State) : exec (.load x) s = .next (s.loadRegs (x.toNat + 1)).advance := rfl

@[simp] theorem State.storeRegs_i (s : State) (n : Nat) : (s.storeRegs n).i = s.i := by
  rw [State.storeRegs_eq]

@[simp] theorem State.loadRegs_i (s : State) (n : Nat) : (s.loadRegs n).i = s.i := by
  rw [State.loadRegs_eq]

/-- After FX55 the byte at offset `r` is V[r], for V0 to VX. -/
theorem State.readByte_storeRegs_of_le (s : State) {x r : Nibble} (h : r.toNat ≤ x.toNat) :
    (s.storeRegs (x.toNat + 1)).readByte (dataAddr s.i r.toNat) = s.reg r := by
  have hstore := (s.readByte_storeRegs (n := x.toNat + 1) (by omega)).1 r.toNat (Nat.lt_succ_of_le h)
  rwa [BitVec.ofNat_toNat, BitVec.setWidth_eq] at hstore

/-- After FX65 the registers V0 to VX hold the bytes from `I`, and the others what they held. -/
theorem State.reg_loadRegs_succ (s : State) (x r : Nibble) :
    (s.loadRegs (x.toNat + 1)).reg r = if r.toNat ≤ x.toNat then s.readByte (dataAddr s.i r.toNat) else s.reg r := by
  simp only [s.reg_loadRegs (n := x.toNat + 1) (by omega) r, Nat.lt_succ_iff]

/-- Settles O39: FX1E masks the sum to 12 bits, and the glyph address fits in `I`. -/
theorem indexArithmetic : Obligations.IndexArithmetic := by
  intro x s
  exact ⟨decode_encode (.addI x), decode_encode (.ldFont x),
    ⟨_, exec_addI x s, addI_toNat s.i (s.reg x), rfl, rfl⟩,
    ⟨_, exec_ldFont x s, fontAddr_toNat (s.reg x), rfl, rfl⟩⟩

/-- Settles O41: the bytes of a transfer lie at different addresses. -/
theorem blockTransfers : Obligations.BlockTransfers := by
  intro x s
  refine ⟨decode_encode (.store x), decode_encode (.load x), ?store, ?load⟩
  case store =>
    refine ⟨_, exec_store x s, ?_, ?_, fun r hr => s.readByte_storeRegs_of_le hr⟩
    · rw [State.advance_pc, State.storeRegs_pc]
    · rw [State.advance_i, State.storeRegs_i]
  case load =>
    refine ⟨_, exec_load x s, ?_, ?_, fun r => s.reg_loadRegs_succ x r⟩
    · rw [State.advance_pc, State.loadRegs_pc]
    · rw [State.advance_i, State.loadRegs_i]

/-- Settles O42: FX65 reads the bytes that FX55 left, at the same addresses. -/
theorem loadRestoresWhatStoreSaved : Obligations.LoadRestoresWhatStoreSaved := by
  intro x s t u w hstore hi hmem hload r hr
  cases (exec_store x s).symm.trans hstore
  cases (exec_load x u).symm.trans hload
  have hui : u.i = s.i := hi.trans (s.storeRegs_i _)
  calc (u.loadRegs (x.toNat + 1)).reg r
      = u.readByte (dataAddr u.i r.toNat) := by rw [State.reg_loadRegs_succ, if_pos hr]
    _ = (s.storeRegs (x.toNat + 1)).readByte (dataAddr s.i r.toNat) := by
        rw [hui, State.readByte, hmem, State.advance_mem, ← State.readByte]
    _ = s.reg r := s.readByte_storeRegs_of_le hr

end Sys2Proof.Machine
end

section
/-! PROOFS. Drawing (R221): the pixels that DXYN toggles and its collision flag, and what drawing twice does. -/

namespace Sys2Proof.Machine

theorem exec_drw (x y n : Nibble) (s : State) :
    exec (.drw x y n) s =
      .next ((s.setDisp (drawSprite Config.drawMode s (s.reg x) (s.reg y) n.toNat).1).setReg vf
        (flagByte (drawSprite Config.drawMode s (s.reg x) (s.reg y) n.toNat).2)).advance := rfl

/-- What DXYN leaves on the display and in VF, by the pixels that the sprite covers. -/
theorem exec_drw_pixels {x y n : Nibble} {s t : State} (h : exec (.drw x y n) s = .next t) :
    (∀ px py, (Covers s (s.reg x) (s.reg y) n.toNat px py → t.display px py = !s.display px py) ∧
      (¬ Covers s (s.reg x) (s.reg y) n.toNat px py → t.display px py = s.display px py)) ∧
    ∃ c, t.reg vf = flagByte c ∧
      (c = true ↔ ∃ px py, Covers s (s.reg x) (s.reg y) n.toNat px py ∧ s.display px py = true) := by
  cases (exec_drw x y n s).symm.trans h
  obtain ⟨hpixels, hcollision⟩ := drawSprite_drawnFrom s (s.reg x) (s.reg y) (n := n.toNat) (by omega)
  exact ⟨hpixels, _, State.reg_setReg_self _ _ _, by simpa [State.display] using hcollision⟩

/-- Which pixels a sprite covers depends on `I` and memory alone. -/
theorem Covers_congr {s t : State} (hi : t.i = s.i) (hm : t.mem = s.mem) (vx vy : Byte) (n : Nat) :
    Covers t vx vy n = Covers s vx vy n := by
  funext px py
  simp only [Covers, State.readByte, hi, hm]

/-- A set bit of the sprite covers a pixel. -/
theorem exists_covers {s : State} {n r c : Nat} (vx vy : Byte) (hr : r < n) (hc : c < 8)
    (hbit : (s.readByte (dataAddr s.i r)).getLsbD c = true) : ∃ px py, Covers s vx vy n px py :=
  ⟨Fin.ofNat 64 (vx.toNat + (7 - c)), Fin.ofNat 32 (vy.toNat + r), r, 7 - c, hr, by omega, rfl, rfl, by
    rwa [show 7 - (7 - c) = c by omega]⟩

/-- Settles O44: the flag is the collision of the sprite. -/
theorem drawTogglesCoveredPixels : Obligations.DrawTogglesCoveredPixels := by
  intro x y n s
  obtain ⟨hpixels, c, hflag, hcollision⟩ := exec_drw_pixels (exec_drw x y n s)
  refine ⟨decode_encode (.drw x y n), _, exec_drw x y n s, rfl, hpixels, fun hhit => ?hit, fun hmiss => ?miss⟩
  case hit => rw [hflag, hcollision.2 hhit, flagByte_true]
  case miss => rw [hflag, Bool.eq_false_of_not_eq_true fun hc => hmiss (hcollision.1 hc), flagByte_false]

/-- Settles O45: both draws cover the same pixels, so the second toggles back what the other toggled, and finds on what
that one turned on. -/
theorem drawTwiceErases : Obligations.DrawTwiceErases := by
  intro x y n s t u w hfirst hdisp hi hmem hx hy hsecond
  have hu : u.display = t.display := by
    funext px py
    rw [State.display, hdisp, State.display]
  obtain ⟨hpix1, -⟩ := exec_drw_pixels hfirst
  obtain ⟨hpix2, c, hflag, hcollision⟩ := exec_drw_pixels hsecond
  rw [Covers_congr hi hmem, hx, hy, hu] at hpix2 hcollision
  refine ⟨fun px py => ?erased, fun hclear ⟨r, k, hr, hk, hbit⟩ => ?collides⟩
  case erased =>
    by_cases hcov : Covers s (s.reg x) (s.reg y) n.toNat px py
    · rw [(hpix2 px py).1 hcov, (hpix1 px py).1 hcov, Bool.not_not]
    · rw [(hpix2 px py).2 hcov, (hpix1 px py).2 hcov]
  case collides =>
    obtain ⟨px, py, hcov⟩ := exists_covers (s.reg x) (s.reg y) hr hk hbit
    have hon : t.display px py = true := by rw [(hpix1 px py).1 hcov, hclear, Bool.not_false]
    rw [hflag, hcollision.2 ⟨px, py, hcov, hon⟩, flagByte_true]

end Sys2Proof.Machine
end

section
/-! PROOFS. Free values and open parameters (R127, R8): what does not depend on the next draw, and the readings that the
model does not take. -/

namespace Sys2Proof.Machine

/-! ### No instruction but CXNN depends on the draw counter -/

/-- `s` with another draw coming next. -/
def State.setDraws (s : State) (n : Nat) : State := { s with draws := n }

theorem State.storeRegs_setDraws (s : State) (n k : Nat) : (s.setDraws n).storeRegs k = (s.storeRegs k).setDraws n := by
  induction k with
  | zero => rfl
  | succ k ih => rw [State.storeRegs, ih]; rfl

theorem State.loadRegs_setDraws (s : State) (n k : Nat) : (s.setDraws n).loadRegs k = (s.loadRegs k).setDraws n := by
  induction k with
  | zero => rfl
  | succ k ih => rw [State.loadRegs, ih]; rfl

theorem execCall_setDraws (nnn : Addr) (s : State) (n : Nat) :
    execCall nnn (s.setDraws n) = mapNext (fun t => t.setDraws n) (execCall nnn s) := by
  rcases execCall_cases nnn s with ⟨hfull, hfault⟩ | ⟨hroom, hnext⟩
  · rw [hfault]
    exact execCall_of_full nnn hfull
  · rw [hnext]
    exact exec_call_of_lt (s := s.setDraws n) nnn hroom

theorem execRet_setDraws (s : State) (n : Nat) :
    execRet (s.setDraws n) = mapNext (fun t => t.setDraws n) (execRet s) := by
  rcases execRet_cases s with ⟨hempty, hfault⟩ | ⟨hpos, hnext⟩
  · rw [hfault]
    exact execRet_of_empty hempty
  · rw [hnext]
    exact exec_ret_of_pos (s := s.setDraws n) hpos

theorem execDrw_setDraws (x y k : Nibble) (s : State) (n : Nat) :
    execDrw x y k (s.setDraws n) = mapNext (fun t => t.setDraws n) (execDrw x y k s) := by
  rw [execDrw, drawSprite_congr (t := s.setDraws n) (s := s) rfl rfl rfl]
  rfl

theorem execStore_setDraws (x : Nibble) (s : State) (n : Nat) :
    execStore x (s.setDraws n) = mapNext (fun t => t.setDraws n) (execStore x s) := by
  rw [execStore, State.storeRegs_setDraws]
  rfl

theorem execLoad_setDraws (x : Nibble) (s : State) (n : Nat) :
    execLoad x (s.setDraws n) = mapNext (fun t => t.setDraws n) (execLoad x s) := by
  rw [execLoad, State.loadRegs_setDraws]
  rfl

/-- Every instruction but CXNN commutes with a change of the draw counter: none of the others reads or writes it. -/
theorem exec_setDraws {i : Instr} (hi : ∀ x nn, i ≠ .rnd x nn) (s : State) (n : Nat) :
    exec i (s.setDraws n) = mapNext (fun t => t.setDraws n) (exec i s) := by
  cases i
  case rnd x nn => exact absurd rfl (hi x nn)
  case call nnn => exact execCall_setDraws nnn s n
  case ret => exact execRet_setDraws s n
  case drw x y k => exact execDrw_setDraws x y k s n
  case store x => exact execStore_setDraws x s n
  case load x => exact execLoad_setDraws x s n
  all_goals rfl

/-- The lowest new key is picked without a draw. -/
theorem waitKeyStep_setDraws (s : State) (n : Nat) :
    waitKeyStep (s.setDraws n) = mapNext (fun t => t.setDraws n) (waitKeyStep s) := by
  have hpick : pickKey Config.waitKeyPick (s.setDraws n).draws (newKeys (s.setDraws n).keys (s.setDraws n).prevKeys) =
      pickKey Config.waitKeyPick s.draws (newKeys s.keys s.prevKeys) := rfl
  rw [waitKeyStep, waitKeyStep, hpick]
  cases pickKey Config.waitKeyPick s.draws (newKeys s.keys s.prevKeys) <;> rfl

/-- Settles O58: the draw counter is read by CXNN alone. -/
theorem onlyRandomInstructionUsesTheDraw : Obligations.OnlyRandomInstructionUsesTheDraw :=
  fun s n => ⟨fun _ hi => exec_setDraws hi s n, waitKeyStep_setDraws s n⟩

/-! ### The other readings of the open parameters -/

/-- The sum does not overflow 16 bits, so the mask makes it the sum modulo 4096 (R153). -/
theorem jumpV0Target_masked_toNat (nnn : Addr) (v0 : Byte) :
    (jumpV0Target true nnn v0).toNat = (nnn.toNat + v0.toNat) % 4096 :=
  (addI_toNat nnn.toWord v0).trans (by rw [toWord_toNat])

theorem lowNibble_toNat (b : Byte) : (b &&& 0x0F#8).toNat = b.toNat % 16 :=
  Nat.and_two_pow_sub_one_eq_mod b.toNat 4

theorem fontAddr_lowNibble_toNat (b : Byte) : (fontAddr .lowNibble b).toNat = 0x050 + 5 * (b.toNat % 16) := by
  have hlt : 0x050 + 5 * (b.toNat % 16) < 2 ^ 16 := by omega
  rw [fontAddr, fontDigit, lowNibble_toNat]
  exact Nat.mod_eq_of_lt hlt

/-- A pixel that would leave the display is clipped, and any other lies at the sums of the coordinates (R221 (a)). -/
theorem spritePixel_clipAtEdge (vx vy : Byte) (r c : Nat) (px : Fin 64) (py : Fin 32) :
    spritePixel .clipAtEdge vx vy r c = some (px, py) ↔
      px.val = vx.toNat % 64 + c ∧ py.val = vy.toNat % 32 + r := by
  have hpx := px.isLt
  have hpy := py.isLt
  simp only [spritePixel]
  split
  next h => simp [Fin.ext_iff, eq_comm]
  next h => simp only [reduceCtorEq, false_iff]; omega

theorem pressedKeys_eq_nil {keys : Word} : pressedKeys keys = [] ↔ keys = 0#16 :=
  List.head?_eq_none_iff.symm.trans (pickKey_eq_none (n := 0))

/-- The free choice is an index below the number of new keys, so there is a key there unless there is none at all. -/
theorem pickKey_anyPressed_eq_none (d : Nat) (new : Word) : pickKey .anyPressed d new = none ↔ new = 0#16 := by
  rw [← pressedKeys_eq_nil, pickKey, List.getElem?_eq_none_iff]
  constructor
  · intro hle
    by_contra hne
    have hlt := Nat.mod_lt (Config.keyChoice d) (List.length_pos_iff.2 hne)
    omega
  · intro hnil
    simp [hnil]

/-- Settles O59: each reading by its own operation. -/
theorem otherReadingsOfOpenParameters : Obligations.OtherReadingsOfOpenParameters := by
  refine ⟨jumpV0Target_masked_toNat, fontAddr_lowNibble_toNat, fun keys v => ?key, spritePixel_clipAtEdge,
    fun d new => ⟨pickKey_anyPressed_eq_none d new, fun k hk => ?pick⟩⟩
  case key => rw [keyPressed, Bool.and_eq_true, decide_eq_true_iff]
  case pick => exact mem_pressedKeys.1 (List.mem_of_getElem? hk)

end Sys2Proof.Machine
end
